-- ==== Sys2Proof/Word.lean ====
section
/-! DEFINITION. The word types of the block: the widths that spec/00_scope.md R6 and R9 and spec/30_encoding.md R70 name. -/

namespace Sys2Proof

/-- 8 bits: a character, an attribute, a byte of memory. -/
abbrev Byte := BitVec 8

/-- 16 bits: a frame-buffer cell, a selector, the hardware cursor. -/
abbrev Half := BitVec 16

/-- 32 bits: a segment base, an FMT value, an HBUF address. -/
abbrev Word := BitVec 32

/-- 64 bits: the result register, a descriptor entry read as one number. -/
abbrev Quad := BitVec 64

/-- 128 bits: one command word (R70). -/
abbrev CommandWord := BitVec 128

end Sys2Proof
end

