-- ==== Sys2Proof/Config.lean ====
section
/-! DEFINITION. What an implementation fixes: the parameters of spec/00_scope.md R8.

The four operands of a descriptor entry, the six entries of GDT_INIT, and the two addresses. TABLE_BASE and FB_BASE are
OPEN in the spec and have no default, so each is a constant with no body: no proof can see what it is
(notes/assumptions/4.md). The default of GDT_INIT stands in Sys2Proof/Machine/Table.lean. -/

namespace Sys2Proof

/-- The (base, limit, access, flags) tuple of one descriptor entry, at the widths of R6. -/
structure EntryFields where
  base   : Word
  limit  : BitVec 20
  access : Byte
  flags  : BitVec 4
deriving DecidableEq, Repr

/-- GDT_INIT[0..5]: the six tuples that dt.build writes (R8, R111), by the role of each entry (R51). -/
structure GdtInit where
  null       : EntryFields
  kernelCode : EntryFields
  kernelData : EntryFields
  userCode   : EntryFields
  userData   : EntryFields
  taskState  : EntryFields
deriving DecidableEq, Repr

/-- The parameters of R8 that are fixed for the life of the machine. -/
structure Params where
  /-- TABLE_BASE, the 32-bit address of the descriptor table. -/
  tableBase : Word
  /-- FB_BASE, the 32-bit physical address of the frame buffer. The block never uses it (20_memory.md R58). -/
  fbBase    : Word
  /-- GDT_INIT. -/
  gdtInit   : GdtInit
deriving DecidableEq, Repr

/-- TABLE_BASE: OPEN, no default (R8, D9). -/
opaque Config.tableBase : Word

/-- FB_BASE: OPEN, no default (R8, D20). -/
opaque Config.fbBase : Word

end Sys2Proof
end

