-- ==== Sys2Proof/Syntax.lean ====
section
/-! DEFINITION. The commands of spec/30_encoding.md R80, one constructor for each row of the opcode table. Every operand
has exactly the width of its field (R72 to R79), so an over-wide operand cannot be written (R104). -/

namespace Sys2Proof

/-- One command of the block. -/
inductive Instr where
  /-- `dt.encode base, limit, access, flags` (R105). -/
  | dtEncode (base : Word) (limit : BitVec 20) (access : Byte) (flags : BitVec 4)
  /-- `dt.build` (R112). -/
  | dtBuild
  /-- `dt.install` (R115). -/
  | dtInstall
  /-- `dt.rd8 off` (R113). -/
  | dtRd8 (off : BitVec 6)
  /-- `dt.rdtp` (R114). -/
  | dtRdtp
  /-- `tm.putc ch` (R144). -/
  | tmPutc (ch : Byte)
  /-- `tm.scroll` (R145). -/
  | tmScroll
  /-- `tm.clear` (R146). -/
  | tmClear
  /-- `tm.setcolor fg, bg` (R147). -/
  | tmSetcolor (fg bg : BitVec 4)
  /-- `tm.rdstate` (R149). -/
  | tmRdstate
  /-- `fb.rd8 off` (R180). -/
  | fbRd8 (off : BitVec 12)
  /-- `fb.wr8 off, data` (R181). -/
  | fbWr8 (off : BitVec 12) (data : Byte)
  /-- `fb.rd16 off` (R182). -/
  | fbRd16 (off : BitVec 12)
  /-- `fb.wr16 off, data` (R183). -/
  | fbWr16 (off : BitVec 12) (data : Half)
  /-- `fmt.utoa value, base, upper, buf, cap` (R203). -/
  | fmtUtoa (value : Word) (base : Byte) (upper : Bool) (buf cap : Word)
  /-- `fmt.itoa value, buf, cap` (R205). -/
  | fmtItoa (value buf cap : Word)
  /-- `fmt.ptoa value, buf, cap` (R207). -/
  | fmtPtoa (value buf cap : Word)
deriving DecidableEq, Repr

end Sys2Proof
end

