-- ==== Sys2Proof/WellFormed.lean ====
section
/-! DEFINITION. Well-formedness.

Of a command (`Instr.wf`): each operand fits the field that spec/30_encoding.md R72 to R79 gives it. The types of
Syntax.lean already hold every operand to its field's width (R104), so every command passes (Laws/PerInstr.lean).

Of a line of assembler source (`Source`, `Source.wf`): R85 and R86. There an operand is a literal of any size, and the
checks do refuse: a literal wider than its field, and a tm.write string that holds the byte 0x00. -/

namespace Sys2Proof

/-- A literal fits a field of `width` bits. The assembler rejects one that does not; it does not mask it (R85). -/
def fits (width n : Nat) : Bool := decide (n < 2 ^ width)

/-- Every operand of the command fits its field (R72 to R79). -/
def Instr.wf : Instr → Bool
  | .dtEncode base limit access flags =>
      fits 32 base.toNat && fits 20 limit.toNat && fits 8 access.toNat && fits 4 flags.toNat
  | .dtBuild => true
  | .dtInstall => true
  | .dtRd8 off => fits 6 off.toNat
  | .dtRdtp => true
  | .tmPutc ch => fits 8 ch.toNat
  | .tmScroll => true
  | .tmClear => true
  | .tmSetcolor fg bg => fits 4 fg.toNat && fits 4 bg.toNat
  | .tmRdstate => true
  | .fbRd8 off => fits 12 off.toNat
  | .fbWr8 off data => fits 12 off.toNat && fits 8 data.toNat
  | .fbRd16 off => fits 12 off.toNat
  | .fbWr16 off data => fits 12 off.toNat && fits 16 data.toNat
  | .fmtUtoa value base upper buf cap =>
      fits 32 value.toNat && fits 8 base.toNat && fits 1 upper.toNat && fits 32 buf.toNat && fits 32 cap.toNat
  | .fmtItoa value buf cap => fits 32 value.toNat && fits 32 buf.toNat && fits 32 cap.toNat
  | .fmtPtoa value buf cap => fits 32 value.toNat && fits 32 buf.toNat && fits 32 cap.toNat

/-- One line of assembler source, its literals read but not yet checked (R85), or a pseudo-instruction (R86). -/
inductive Source where
  | dtEncode (base limit access flags : Nat)
  | dtBuild
  | dtInstall
  | dtRd8 (off : Nat)
  | dtRdtp
  | tmPutc (ch : Nat)
  | tmScroll
  | tmClear
  | tmSetcolor (fg bg : Nat)
  | tmRdstate
  | fbRd8 (off : Nat)
  | fbWr8 (off data : Nat)
  | fbRd16 (off : Nat)
  | fbWr16 (off data : Nat)
  | fmtUtoa (value base upper buf cap : Nat)
  /-- The one operand that may be negative (R85). -/
  | fmtItoa (value : Int) (buf cap : Nat)
  | fmtPtoa (value buf cap : Nat)
  /-- `tm.write "s"`. -/
  | tmWrite (s : List Byte)
  /-- `tm.init`. -/
  | tmInit
  /-- `dt.boot`. -/
  | dtBoot
deriving DecidableEq, Repr

/-- The assembler accepts the line: every literal fits its field, the fmt.itoa value lies in [-2^31, 2^32), a tm.write
string holds no 0x00 (R85, R86). Non-negative fmt.itoa literals of 2^31 and above: notes/assumptions/13.md. -/
def Source.wf : Source → Bool
  | .dtEncode base limit access flags => fits 32 base && fits 20 limit && fits 8 access && fits 4 flags
  | .dtBuild => true
  | .dtInstall => true
  | .dtRd8 off => fits 6 off
  | .dtRdtp => true
  | .tmPutc ch => fits 8 ch
  | .tmScroll => true
  | .tmClear => true
  | .tmSetcolor fg bg => fits 4 fg && fits 4 bg
  | .tmRdstate => true
  | .fbRd8 off => fits 12 off
  | .fbWr8 off data => fits 12 off && fits 8 data
  | .fbRd16 off => fits 12 off
  | .fbWr16 off data => fits 12 off && fits 16 data
  | .fmtUtoa value base upper buf cap => fits 32 value && fits 8 base && fits 1 upper && fits 32 buf && fits 32 cap
  | .fmtItoa value buf cap => decide (-2 ^ 31 ≤ value) && decide (value < 2 ^ 32) && fits 32 buf && fits 32 cap
  | .fmtPtoa value buf cap => fits 32 value && fits 32 buf && fits 32 cap
  | .tmWrite s => s.all (fun b => b != 0#8)
  | .tmInit => true
  | .dtBoot => true

end Sys2Proof
end

