-- ==== Sys2Proof/Decode.lean ====
section
/-! DEFINITION. The command word: bit fields and byte order, the formats and the opcode map, the decoder and the encoder
(spec/30_encoding.md R70 to R88, spec/20_memory.md R52). One table of opcodes, formats and reserved bits serves both
directions. -/

namespace Sys2Proof

/-! ## Bit fields and byte order -/

/-- `v` placed with its bit 0 at bit `lo` of a command word. -/
def place {n : Nat} (lo : Nat) (v : BitVec n) : CommandWord := v.setWidth 128 <<< lo

/-- The `n` bits of a command word from bit `lo` up (R87: zero-extended, never scaled). -/
def field (lo n : Nat) (w : CommandWord) : BitVec n := w.extractLsb' lo n

/-- The first `n` bytes of `v`, byte k being v[8k+7:8k], the lowest first (R52). -/
def leBytes {m : Nat} (n : Nat) (v : BitVec m) : List Byte := (List.range n).map (fun k => v.extractLsb' (8 * k) 8)

/-- The number whose little-endian bytes are `bs` (R52). -/
def leValue : List Byte → Nat
  | [] => 0
  | b :: bs => b.toNat + 256 * leValue bs

/-! ## Formats and the opcode map -/

/-- The formats of R72 to R79. -/
inductive Format where
  | formatN | formatDE | formatDO | formatC | formatK | formatF0 | formatF8 | formatF16 | formatU | formatS
deriving DecidableEq, Repr

/-- The `n` bits from `lo` up, all ones: one "reserved, 0" line of a format's table. -/
def ones (lo n : Nat) : CommandWord := place lo (BitVec.allOnes n)

/-- `reserved_mask` of R88: the OR of the bits that the format's table marks "reserved, 0". -/
def reservedMask : Format → CommandWord
  | .formatN => ones 8 120                       -- R72 [127:8]
  | .formatDE => ones 72 56                      -- R73 [127:72]
  | .formatDO => ones 14 114                     -- R74 [127:14]
  | .formatC => ones 16 112                      -- R75 [127:16]
  | .formatK => ones 16 112                      -- R76 [127:16]
  | .formatF0 => ones 20 8 ||| ones 28 8 ||| ones 36 92   -- R77 [27:20], [35:28], [127:36]
  | .formatF8 => ones 28 8 ||| ones 36 92        -- R77 [35:28], [127:36]
  | .formatF16 => ones 36 92                     -- R77 [127:36]
  | .formatU => ones 49 15                       -- R78 [63:49]
  | .formatS => ones 40 24                       -- R79 [63:40]

/-- The mnemonics of R80. -/
inductive Mnemonic where
  | dtEncode | dtBuild | dtInstall | dtRd8 | dtRdtp
  | tmPutc | tmScroll | tmClear | tmSetcolor | tmRdstate
  | fbRd8 | fbWr8 | fbRd16 | fbWr16
  | fmtUtoa | fmtItoa | fmtPtoa
deriving DecidableEq, Repr

/-- The rows of R80, in order. -/
def allMnemonics : List Mnemonic :=
  [.dtEncode, .dtBuild, .dtInstall, .dtRd8, .dtRdtp] ++
  [.tmPutc, .tmScroll, .tmClear, .tmSetcolor, .tmRdstate] ++
  [.fbRd8, .fbWr8, .fbRd16, .fbWr16] ++
  [.fmtUtoa, .fmtItoa, .fmtPtoa]

/-- The opcode of R80, bits [7:0] of the word (R71). -/
def opcode : Mnemonic → Byte
  | .dtEncode => 0x01
  | .dtBuild => 0x02
  | .dtInstall => 0x03
  | .dtRd8 => 0x04
  | .dtRdtp => 0x05
  | .tmPutc => 0x10
  | .tmScroll => 0x11
  | .tmClear => 0x12
  | .tmSetcolor => 0x13
  | .tmRdstate => 0x14
  | .fbRd8 => 0x18
  | .fbWr8 => 0x19
  | .fbRd16 => 0x1A
  | .fbWr16 => 0x1B
  | .fmtUtoa => 0x20
  | .fmtItoa => 0x21
  | .fmtPtoa => 0x22

/-- The format of R80. -/
def formatOf : Mnemonic → Format
  | .dtEncode => .formatDE
  | .dtBuild => .formatN
  | .dtInstall => .formatN
  | .dtRd8 => .formatDO
  | .dtRdtp => .formatN
  | .tmPutc => .formatC
  | .tmScroll => .formatN
  | .tmClear => .formatN
  | .tmSetcolor => .formatK
  | .tmRdstate => .formatN
  | .fbRd8 => .formatF0
  | .fbWr8 => .formatF8
  | .fbRd16 => .formatF0
  | .fbWr16 => .formatF16
  | .fmtUtoa => .formatU
  | .fmtItoa => .formatS
  | .fmtPtoa => .formatS

/-- The row of R80 with this opcode, if there is one. -/
def mnemonicOf (op : Byte) : Option Mnemonic := allMnemonics.find? (fun m => opcode m == op)

/-- The mnemonic of a command. -/
def Instr.mnemonic : Instr → Mnemonic
  | .dtEncode .. => .dtEncode
  | .dtBuild => .dtBuild
  | .dtInstall => .dtInstall
  | .dtRd8 .. => .dtRd8
  | .dtRdtp => .dtRdtp
  | .tmPutc .. => .tmPutc
  | .tmScroll => .tmScroll
  | .tmClear => .tmClear
  | .tmSetcolor .. => .tmSetcolor
  | .tmRdstate => .tmRdstate
  | .fbRd8 .. => .fbRd8
  | .fbWr8 .. => .fbWr8
  | .fbRd16 .. => .fbRd16
  | .fbWr16 .. => .fbWr16
  | .fmtUtoa .. => .fmtUtoa
  | .fmtItoa .. => .fmtItoa
  | .fmtPtoa .. => .fmtPtoa

/-! ## Decoding -/

/-- Why a word is no command (R84). -/
inductive DecodeError where
  /-- The opcode is not in R80 (R81). -/
  | badOpcode
  /-- The opcode is legal and a reserved bit of its format is 1 (R82). -/
  | reservedBits
deriving DecidableEq, Repr

/-- Why a string of bytes is no command. -/
inductive BytesError where
  /-- The bytes are not the 16 of one command word (R70; notes/assumptions/14.md). -/
  | notOneWord
  /-- They are, and the word is no command. -/
  | badWord (e : DecodeError)
deriving DecidableEq, Repr

/-- `fields(fmt, w)` of R88: the command of the row `m` with the operands that `w` holds (R73 to R79). -/
def operands (m : Mnemonic) (w : CommandWord) : Instr :=
  match m with
  | .dtEncode => .dtEncode (field 8 32 w) (field 40 20 w) (field 60 8 w) (field 68 4 w)
  | .dtBuild => .dtBuild
  | .dtInstall => .dtInstall
  | .dtRd8 => .dtRd8 (field 8 6 w)
  | .dtRdtp => .dtRdtp
  | .tmPutc => .tmPutc (field 8 8 w)
  | .tmScroll => .tmScroll
  | .tmClear => .tmClear
  | .tmSetcolor => .tmSetcolor (field 8 4 w) (field 12 4 w)
  | .tmRdstate => .tmRdstate
  | .fbRd8 => .fbRd8 (field 8 12 w)
  | .fbWr8 => .fbWr8 (field 8 12 w) (field 20 8 w)
  | .fbRd16 => .fbRd16 (field 8 12 w)
  | .fbWr16 => .fbWr16 (field 8 12 w) (field 20 16 w)
  | .fmtUtoa => .fmtUtoa (field 8 32 w) (field 40 8 w) (field 48 1 w == 1#1) (field 64 32 w) (field 96 32 w)
  | .fmtItoa => .fmtItoa (field 8 32 w) (field 64 32 w) (field 96 32 w)
  | .fmtPtoa => .fmtPtoa (field 8 32 w) (field 64 32 w) (field 96 32 w)

/-- The decoder of R88, total on every 128-bit word. -/
def decode (w : CommandWord) : Except DecodeError Instr :=
  match mnemonicOf (field 0 8 w) with
  | none => .error .badOpcode
  | some m => if w &&& reservedMask (formatOf m) ≠ 0#128 then .error .reservedBits else .ok (operands m w)

/-- The command that the client's bytes hand over, byte k being word[8k+7:8k] (R70). -/
def decodeBytes (bs : List Byte) : Except BytesError Instr :=
  if bs.length = 16 then (decode (BitVec.ofNat 128 (leValue bs))).mapError .badWord else .error .notOneWord

/-! ## Encoding -/

/-- The command word of a command: the opcode of R80 and each operand at its bits of R72 to R79, the rest 0. -/
def encode (i : Instr) : CommandWord :=
  place 0 (opcode i.mnemonic) |||
  match i with
  | .dtEncode base limit access flags => place 8 base ||| place 40 limit ||| place 60 access ||| place 68 flags
  | .dtBuild => 0#128
  | .dtInstall => 0#128
  | .dtRd8 off => place 8 off
  | .dtRdtp => 0#128
  | .tmPutc ch => place 8 ch
  | .tmScroll => 0#128
  | .tmClear => 0#128
  | .tmSetcolor fg bg => place 8 fg ||| place 12 bg
  | .tmRdstate => 0#128
  | .fbRd8 off => place 8 off
  | .fbWr8 off data => place 8 off ||| place 20 data
  | .fbRd16 off => place 8 off
  | .fbWr16 off data => place 8 off ||| place 20 data
  | .fmtUtoa value base upper buf cap =>
      place 8 value ||| place 40 base ||| place 48 (BitVec.ofBool upper) ||| place 64 buf ||| place 96 cap
  | .fmtItoa value buf cap => place 8 value ||| place 64 buf ||| place 96 cap
  | .fmtPtoa value buf cap => place 8 value ||| place 64 buf ||| place 96 cap

/-- The 16 bytes that hand a command to the block (R70). -/
def encodeBytes (i : Instr) : List Byte := leBytes 16 (encode i)

/-! ## The opcode table's numbering -/

/-- The instruction read from the low `nbits` bits of `w` as spec/opcode_table.json numbers them, every higher bit 0,
laid out as the 16 bytes of a command word. -/
def decodeTableWord (nbits w : Nat) : Option Instr :=
  (decodeBytes (leBytes 16 (BitVec.ofNat 128 (w % 2 ^ nbits)))).toOption

end Sys2Proof
end

