-- ==== Sys2Proof/Machine/Table.lean ====
section
/-! DEFINITION. The descriptor entry, the selectors, the Table Pointer and the bytes of the table
(spec/40_descriptor_encoder.md R100 to R111), as functions of their operands: no state. -/

namespace Sys2Proof.Machine

/-! ## The entry (R100 to R106) -/

/-- `encode` of R103: { base[31:24], flags, limit[19:16], access, base[23:0], limit[15:0] }. -/
def encodeEntry (base : Word) (limit : BitVec 20) (access : Byte) (flags : BitVec 4) : Quad :=
  base.extractLsb' 24 8 ++ flags ++ limit.extractLsb' 16 4 ++ access ++ base.extractLsb' 0 24 ++ limit.extractLsb' 0 16

/-- The inverse of R106. The block has no command for it. -/
def decodeEntry (d : Quad) : EntryFields :=
  { base := d.extractLsb' 56 8 ++ d.extractLsb' 16 24
    limit := d.extractLsb' 48 4 ++ d.extractLsb' 0 16
    access := d.extractLsb' 40 8
    flags := d.extractLsb' 52 4 }

/-- The entry that a tuple of GDT_INIT packs to. -/
def entryWord (e : EntryFields) : Quad := encodeEntry e.base e.limit e.access e.flags

/-- The access byte's fields (R101). The block gives them no meaning; they are for the reader. -/
def accessPresent (access : Byte) : Bool := access.getLsbD 7
/-- DPL, the 2-bit privilege level (R101). -/
def accessDpl (access : Byte) : BitVec 2 := access.extractLsb' 5 2
/-- S, the descriptor-type flag (R101). -/
def accessCodeOrData (access : Byte) : Bool := access.getLsbD 4
/-- E, the executable flag (R101). -/
def accessExecutable (access : Byte) : Bool := access.getLsbD 3
/-- DC, the direction/conforming flag (R101). -/
def accessDirConforming (access : Byte) : Bool := access.getLsbD 2
/-- RW, the readable/writable flag (R101). -/
def accessReadWrite (access : Byte) : Bool := access.getLsbD 1
/-- A, the accessed flag (R101). -/
def accessAccessed (access : Byte) : Bool := access.getLsbD 0

/-- G, the granularity flag (R102). -/
def flagsGranularity (flags : BitVec 4) : Bool := flags.getLsbD 3
/-- DB, the operand-size flag (R102). -/
def flagsOperandSize (flags : BitVec 4) : Bool := flags.getLsbD 2
/-- L, the long-mode flag (R102). -/
def flagsLongMode (flags : BitVec 4) : Bool := flags.getLsbD 1
/-- AVL, the available flag (R102). -/
def flagsAvailable (flags : BitVec 4) : Bool := flags.getLsbD 0

/-! ## Selectors (R107, R108) -/

/-- A selector: index in bits [15:3], bit 2 zero, the requested privilege level in bits [1:0] (R107). -/
def selector (index : BitVec 13) (rpl : BitVec 2) : Half := index ++ 0#1 ++ rpl

/-- Kernel code, 0x08: entry 1 (R108). -/
def kernelCodeSelector : Half := selector 1 0
/-- Kernel data, 0x10: entry 2 (R108). -/
def kernelDataSelector : Half := selector 2 0
/-- User code, 0x1B: entry 3 (R108). -/
def userCodeSelector : Half := selector 3 3
/-- User data, 0x23: entry 4 (R108). -/
def userDataSelector : Half := selector 4 3
/-- Task state, 0x28: entry 5 (R108). -/
def taskStateSelector : Half := selector 5 0

/-! ## The table and the Table Pointer (R51, R109 to R111) -/

/-- The six tuples in the order of R51. -/
def gdtEntries (g : GdtInit) : List EntryFields :=
  [g.null, g.kernelCode, g.kernelData, g.userCode, g.userData, g.taskState]

/-- The 48 bytes of the table: entry i at offsets 8i to 8i+7, little-endian (R51, R52, R112). -/
def tableBytes (g : GdtInit) : List Byte := (gdtEntries g).flatMap (fun e => leBytes 8 (entryWord e))

/-- The size of the table in bytes: 6 entries of 8 (R6). -/
def tableLength : Nat := 48

/-- TP: size in bits [15:0], base in bits [47:16] (R28, R109). -/
def tablePointer (size : Half) (base : Word) : BitVec 48 := base ++ size

/-- TP.size (R28). -/
def tpSize (tp : BitVec 48) : Half := tp.extractLsb' 0 16

/-- TP.base (R28). -/
def tpBase (tp : BitVec 48) : Word := tp.extractLsb' 16 32

/-- The Table Pointer as bytes: six, little-endian, the size's low byte first (R109). -/
def tablePointerBytes (tp : BitVec 48) : List Byte := leBytes 6 tp

/-- The Table Pointer after dt.build: size 6*8 - 1 = 47, base TABLE_BASE (R110). -/
def builtPointer (p : Params) : BitVec 48 := tablePointer 0x002F p.tableBase

/-- The default GDT_INIT (R111, D11, D12; notes/assumptions/5.md). -/
def gdtDefault : GdtInit :=
  { null       := { base := 0, limit := 0x00000, access := 0x00, flags := 0x0 }
    kernelCode := { base := 0, limit := 0xFFFFF, access := 0x9A, flags := 0xC }
    kernelData := { base := 0, limit := 0xFFFFF, access := 0x92, flags := 0xC }
    userCode   := { base := 0, limit := 0xFFFFF, access := 0xFA, flags := 0xC }
    userData   := { base := 0, limit := 0xFFFFF, access := 0xF2, flags := 0xC }
    taskState  := { base := 0, limit := 0x00000, access := 0x00, flags := 0x0 } }

end Sys2Proof.Machine
end

