-- ==== Sys2Proof/Machine/State.lean ====
section
/-! DEFINITION. The state of the block (spec/10_state.md), its reset (spec/70_reset_and_hazards.md R250), and the reasons a
step can stop. Plain data throughout. -/

namespace Sys2Proof.Machine

/-- A byte space: (offset or address, byte) pairs with addresses strictly rising. A byte with no entry holds no value
(R29, R36; notes/assumptions/1.md), so no entry can equal what an unlisted address reads as. -/
abbrev Memory := List Host.Cell

/-- The canonical form: addresses strictly rising. -/
abbrev Memory.wf (m : Memory) : Prop := m.Pairwise (fun x y => x.1 < y.1)

/-- A request to the CPU in the event log (R31). -/
inductive CpuEvent where
  | loadTable (size : Half) (base : Word)
  | reloadSelectors (code data : Half)
deriving DecidableEq, Repr

/-- A command as the client hands it over: its word (R70) and the level of the input cpu_if at that time (R38). -/
structure Command where
  word  : CommandWord
  cpuIf : Bool
deriving DecidableEq, Repr

/-- The causes of a refusal (R231). A refusal is a next state (Ops.lean), not a stop of the model. -/
inductive Cause where
  | badOpcode | reservedBits | notBuilt | installed | interruptsEnabled | tblRange
  | fbRange | fbAlign | fbUndefined | badBase | bufWrap
deriving DecidableEq, Repr

/-- The state of the block, and after it three fields of the model's own. -/
structure State where
  /-- STATUS (R23). -/
  status      : Byte
  /-- RES; `none` until the first command that writes it (R24). -/
  res         : Option Quad
  /-- REFUSED_MARK (R25). -/
  refusedMark : Bool
  /-- BUILT (R26). -/
  built       : Bool
  /-- INSTALLED (R27). -/
  installed   : Bool
  /-- TP; `none` while BUILT is 0 (R26, R28). -/
  tp          : Option (BitVec 48)
  /-- TBL, offsets 0 to 47 (R29, R51). -/
  tbl         : Memory
  /-- CPU_EVENTS, oldest first (R31). -/
  cpuEvents   : List CpuEvent
  /-- ROW (R32). -/
  row         : BitVec 5
  /-- COL (R33). -/
  col         : BitVec 7
  /-- COLOR (R34). -/
  color       : Byte
  /-- HWCUR (R35). -/
  hwcur       : Half
  /-- FB, offsets 0 to 3999 (R36, R53). -/
  fb          : Memory
  /-- HBUF, the bytes the block has written to the caller's buffers (R50; notes/assumptions/10.md). -/
  hbuf        : Memory
  /-- The model's own: the level of cpu_if at the command being run (R38; notes/assumptions/3.md). -/
  cpuIf       : Bool
  /-- The model's own: the commands the client has yet to hand over, the next one first (R22; notes/assumptions/2.md). -/
  pending     : List Command
  /-- The model's own: the parameters of R8, which no step writes (notes/assumptions/4.md). -/
  params      : Params
deriving DecidableEq, Repr

/-- The faults of the model. The spec gives the block none (R230). -/
inductive Fault where
  /-- Raised by tm.putc when it would draw a cell with ROW ≥ 25 or COL ≥ 80, where R140 gives put_cell no meaning. R39 rules
  such a state out between commands, and no run reaches one. Safe (notes/assumptions/8.md). -/
  | cursorOffGrid
deriving DecidableEq, Repr

/-- The model's refusals: an instruction the model gives no meaning. Not the spec's refusals, which are next states. -/
inductive Refusal where
  /-- Raised by exec for an instruction with no meaning yet; every instruction has one, so no arm raises it. Safe. -/
  | notModelled (mnemonic : String)
deriving DecidableEq, Repr

/-- What a command, and a step, end in. -/
abbrev Result := Host.Outcome State Fault Refusal

/-- The block right after reset (R250). TABLE_BASE and FB_BASE have no default and are constants with no body
(notes/assumptions/4.md); cpuIf and pending are the model's own (notes/assumptions/2.md, 3.md). -/
def State.reset : State :=
  { status := 0
    res := none
    refusedMark := false
    built := false
    installed := false
    tp := none
    tbl := []
    cpuEvents := []
    row := 0
    col := 0
    color := 0x07
    hwcur := 0
    fb := []
    hbuf := []
    cpuIf := false
    pending := []
    params := { tableBase := Config.tableBase, fbBase := Config.fbBase, gdtInit := gdtDefault } }

end Sys2Proof.Machine
end

