-- ==== Sys2Proof/Machine/Flags.lean ====
section
/-! DEFINITION. The status indications of the block: STATUS and REFUSED_MARK (spec/10_state.md R23, R25;
spec/60_exceptions.md R231). The block has no arithmetic condition codes. -/

namespace Sys2Proof.Machine

/-- The value of STATUS after a command that completed (R231, code 0). -/
def statusOk : Byte := 0

/-- The code of a refusal cause (R231). -/
def causeCode : Cause → Byte
  | .badOpcode => 1
  | .reservedBits => 2
  | .notBuilt => 3
  | .installed => 4
  | .interruptsEnabled => 5
  | .tblRange => 6
  | .fbRange => 7
  | .fbAlign => 8
  | .fbUndefined => 9
  | .badBase => 10
  | .bufWrap => 11

/-- `STATUS <- 0`: the command completed. REFUSED_MARK keeps its value (R25). -/
def State.withOk (s : State) : State := { s with status := statusOk }

/-- `STATUS <- code`, `REFUSED_MARK <- 1`, and nothing else (R233). -/
def State.withRefused (c : Cause) (s : State) : State := { s with status := causeCode c, refusedMark := true }

/-- The refusal of a word that does not decode (R81, R82). -/
def decodeCause : DecodeError → Cause
  | .badOpcode => .badOpcode
  | .reservedBits => .reservedBits

end Sys2Proof.Machine
end

