-- ==== Sys2Proof/Machine/Ops.lean ====
section
/-! DEFINITION. The shared operations: memory, registers, the CPU-event log, how a command completes and how it is
refused (spec/00_scope.md R11, spec/60_exceptions.md R230 to R235). -/

namespace Sys2Proof.Machine

/-! ## Memory -/

/-- The byte at an address, or `none` where the space holds no value there: FB[i], TBL[i] of R11. -/
def Memory.load : Memory → Nat → Option Byte
  | [], _ => none
  | (b, v) :: rest, a => if b = a then some v else Memory.load rest a

/-- `bs` as cells at addresses a, a + 1, … (R11, R52). -/
def cellsFrom : Nat → List Byte → Memory
  | _, [] => []
  | a, b :: bs => (a, b) :: cellsFrom (a + 1) bs

/-- The cells of `m` below `a`. -/
def Memory.under (m : Memory) (a : Nat) : Memory := m.filter (fun c => decide (c.1 < a))

/-- The cells of `m` at or past `a`. -/
def Memory.from (m : Memory) (a : Nat) : Memory := m.filter (fun c => decide (a ≤ c.1))

/-- MemWrite: the bytes `bs` at `a` and up, the lowest first (R11, R52, R65). Each becomes defined (R36). -/
def Memory.store (m : Memory) (a : Nat) (bs : List Byte) : Memory :=
  m.under a ++ cellsFrom a bs ++ m.from (a + bs.length)

/-- The `n` bytes at `src` and up copied to `dst` and up, each as it stands, value or undefined (R11, R143); every byte is
read before any is written. -/
def Memory.copy (m : Memory) (dst src n : Nat) : Memory :=
  m.under dst ++ ((m.from src).under (src + n)).map (fun c => (c.1 - src + dst, c.2)) ++ m.from (dst + n)

/-! ## Registers and the event log -/

/-- `RES <- v` (R24). -/
def State.withRes (v : Quad) (s : State) : State := { s with res := some v }

/-- `ROW <- r`, `COL <- c`. -/
def State.withCursor (r : BitVec 5) (c : BitVec 7) (s : State) : State := { s with row := r, col := c }

/-- `COLOR <- v` (R34). -/
def State.withColor (v : Byte) (s : State) : State := { s with color := v }

/-- `sync_cursor()`: `HWCUR <- 80*ROW + COL` (R142). -/
def State.synced (s : State) : State := { s with hwcur := 80 * s.row.setWidth 16 + s.col.setWidth 16 }

/-- FB replaced. -/
def State.withFb (m : Memory) (s : State) : State := { s with fb := m }

/-- HBUF replaced. -/
def State.withHbuf (m : Memory) (s : State) : State := { s with hbuf := m }

/-- TBL and TP written, `BUILT <- 1` (R112). -/
def State.withTable (m : Memory) (tp : BitVec 48) (s : State) : State := { s with tbl := m, tp := some tp, built := true }

/-- `emit CpuEvent(e)`: `e` appended to CPU_EVENTS (R11, R31). -/
def State.emit (e : CpuEvent) (s : State) : State := { s with cpuEvents := s.cpuEvents ++ [e] }

/-- `INSTALLED <- 1` (R115). -/
def State.withInstalled (s : State) : State := { s with installed := true }

/-! ## How a command ends -/

/-- The command completed: `STATUS <- 0` (R23, R231). -/
def complete (s : State) : Result := .next s.withOk

/-- `raise Refused(cause)`: the block's one abnormal outcome, and all its entry does (R11, R230, R233, R234). No control is
transferred and nothing is saved but the code, so there is no return: the client goes on with its next command (R235). -/
def refuse (c : Cause) (s : State) : Result := .next (s.withRefused c)

/-- A result command whose value is `v`: `RES <- v`, `STATUS <- 0`. -/
def answer (v : Quad) (s : State) : Result := complete (s.withRes v)

/-! ## The command stream -/

/-- The client hands over `c`: the block sees the level of cpu_if, and `rest` is left to hand over (R22, R38). -/
def State.accept (c : Command) (rest : List Command) (s : State) : State := { s with pending := rest, cpuIf := c.cpuIf }

/-- The client offers `w` as its next command, at the level of cpu_if that stands. -/
def State.offer (w : CommandWord) (s : State) : State := { s with pending := { word := w, cpuIf := s.cpuIf } :: s.pending }

end Sys2Proof.Machine
end

