-- ==== Sys2Proof/Machine/Operands.lean ====
section
/-! DEFINITION. How a command reads its operands (spec/30_encoding.md R87): offsets and their range and alignment checks,
two's complement, the width of RES. -/

namespace Sys2Proof.Machine

/-- `zext_64(v)`: a value as RES holds it (R9). -/
def zext64 {n : Nat} (v : BitVec n) : Quad := v.setWidth 64

/-- `s32(v)`: the value read as two's complement (R9, R87). -/
def s32 (v : Word) : Int := v.toInt

/-- The size of FB in bytes: 80 by 25 cells of 2 (R6, R50). -/
def fbLength : Nat := 4000

/-- A TBL offset is past the table (R113). -/
def offPastTable (off : BitVec 6) : Bool := decide (tableLength ≤ off.toNat)

/-- An FB offset is past the frame buffer (R180 to R183). -/
def offPastFb (off : BitVec 12) : Bool := decide (fbLength ≤ off.toNat)

/-- An FB offset is odd, so not a cell's (R55, R182, R183). -/
def offOdd (off : BitVec 12) : Bool := off.getLsbD 0

/-- buf + cap > 2^32: the buffer runs past the top of HBUF (R200). -/
def bufWraps (buf cap : Word) : Bool := decide (2 ^ 32 < buf.toNat + cap.toNat)

end Sys2Proof.Machine
end

