-- ==== Sys2Proof/Machine/Descriptor.lean ====
section
/-! DEFINITION. The DTE's commands (spec/40_descriptor_encoder.md R105, R112 to R116). -/

namespace Sys2Proof.Machine

/-- `dt.encode` (R105). -/
def execDtEncode (base : Word) (limit : BitVec 20) (access : Byte) (flags : BitVec 4) (s : State) : Result :=
  answer (encodeEntry base limit access flags) s

/-- `dt.build` (R112). -/
def execDtBuild (s : State) : Result :=
  if s.installed then refuse .installed s
  else complete (s.withTable (s.tbl.store 0 (tableBytes s.params.gdtInit)) (builtPointer s.params))

/-- `dt.install` (R115): LoadTable before ReloadSelectors (R258). A TP with no value is refused as not built
(notes/assumptions/9.md). -/
def execDtInstall (s : State) : Result :=
  if !s.built then refuse .notBuilt s
  else if s.installed then refuse .installed s
  else if s.cpuIf then refuse .interruptsEnabled s
  else match s.tp with
    | none => refuse .notBuilt s
    | some tp =>
      complete (((s.emit (.loadTable (tpSize tp) (tpBase tp))).emit
        (.reloadSelectors kernelCodeSelector kernelDataSelector)).withInstalled)

/-- `dt.rd8` (R113). A table byte with no value is refused as not built (notes/assumptions/9.md). -/
def execDtRd8 (off : BitVec 6) (s : State) : Result :=
  if offPastTable off then refuse .tblRange s
  else if !s.built then refuse .notBuilt s
  else match s.tbl.load off.toNat with
    | none => refuse .notBuilt s
    | some b => answer (zext64 b) s

/-- `dt.rdtp` (R114). -/
def execDtRdtp (s : State) : Result :=
  if !s.built then refuse .notBuilt s
  else match s.tp with
    | none => refuse .notBuilt s
    | some tp => answer (zext64 tp) s

end Sys2Proof.Machine
end

