-- ==== Sys2Proof/Machine/Format.lean ====
section
/-! DEFINITION. The FMT: the digit alphabet, the three texts, the buffer contract they share, and the commands
(spec/43_format_encoder.md R200 to R207). -/

namespace Sys2Proof.Machine

/-! ## Texts (R201, R202, R204, R206) -/

/-- The digit alphabet (R201). -/
def digit (d : Nat) (upper : Bool) : Byte :=
  if d < 10 then BitVec.ofNat 8 (0x30 + d)
  else if upper then BitVec.ofNat 8 (0x41 + (d - 10))
  else BitVec.ofNat 8 (0x61 + (d - 10))

/-- The loop of R202: the digits of v, lowest order first, at most `fuel` of them. -/
def digitsLow (base : Nat) (upper : Bool) : (fuel v : Nat) → List Byte
  | 0, _ => []
  | fuel + 1, v => if v = 0 then [] else digit (v % base) upper :: digitsLow base upper fuel (v / base)

/-- `utoa_text` (R202), for v < 2^32 and base 10 or 16: 32 turns of the loop are enough. -/
def utoaText (v base : Nat) (upper : Bool) : List Byte :=
  if v = 0 then [0x30#8] else (digitsLow base upper 32 v).reverse

/-- "-2147483648": the literal of R204. -/
def minText : List Byte := [0x2D#8, 0x32#8, 0x31#8, 0x34#8, 0x37#8, 0x34#8, 0x38#8, 0x33#8, 0x36#8, 0x34#8, 0x38#8]

/-- `itoa_text` (R204). -/
def itoaText (v : Word) : List Byte :=
  if s32 v = -2147483648 then minText
  else if s32 v < 0 then 0x2D#8 :: utoaText (-s32 v).toNat 10 false
  else utoaText (s32 v).toNat 10 false

/-- `ptoa_text` (R206): "0x", then the eight hex digits, most significant first, lower case. -/
def ptoaText (v : Word) : List Byte :=
  [0x30#8, 0x78#8] ++ [28, 24, 20, 16, 12, 8, 4, 0].map (fun k => digit (v.extractLsb' k 4).toNat false)

/-! ## The buffer contract (R200) -/

/-- The number of characters that fit: min(len(text), cap - 1), for cap > 0 (R200). -/
def fitLength (text : List Byte) (cap : Word) : Nat := min text.length (cap.toNat - 1)

/-- The bytes written for cap > 0: the prefix that fits, then the terminator (R200, R208). -/
def fitBytes (text : List Byte) (cap : Word) : List Byte := text.take (fitLength text cap) ++ [0x00#8]

/-- `put_text(text, buf, cap)`, then `STATUS <- 0` (R200). -/
def putText (text : List Byte) (buf cap : Word) (s : State) : Result :=
  if bufWraps buf cap then refuse .bufWrap s
  else if cap = 0#32 then answer 0#64 s
  else answer (BitVec.ofNat 64 (fitLength text cap)) (s.withHbuf (s.hbuf.store buf.toNat (fitBytes text cap)))

/-! ## Commands (R203, R205, R207) -/

/-- `fmt.utoa` (R203). -/
def execFmtUtoa (value : Word) (base : Byte) (upper : Bool) (buf cap : Word) (s : State) : Result :=
  if base ≠ 10#8 ∧ base ≠ 16#8 then refuse .badBase s
  else putText (utoaText value.toNat base.toNat upper) buf cap s

/-- `fmt.itoa` (R205). -/
def execFmtItoa (value buf cap : Word) (s : State) : Result := putText (itoaText value) buf cap s

/-- `fmt.ptoa` (R207). -/
def execFmtPtoa (value buf cap : Word) (s : State) : Result := putText (ptoaText value) buf cap s

end Sys2Proof.Machine
end

