-- ==== Sys2Proof/Machine/FrameBuffer.lean ====
section
/-! DEFINITION. The frame-buffer commands (spec/42_frame_buffer.md R180 to R184). They act on FB alone: no cursor, no
colour (R184). -/

namespace Sys2Proof.Machine

/-- `fb.rd8` (R180). -/
def execFbRd8 (off : BitVec 12) (s : State) : Result :=
  if offPastFb off then refuse .fbRange s
  else match s.fb.load off.toNat with
    | none => refuse .fbUndefined s
    | some b => answer (zext64 b) s

/-- `fb.wr8` (R181). -/
def execFbWr8 (off : BitVec 12) (data : Byte) (s : State) : Result :=
  if offPastFb off then refuse .fbRange s
  else complete (s.withFb (s.fb.store off.toNat (leBytes 1 data)))

/-- `fb.rd16` (R182): the cell as { FB[off+1], FB[off] }. -/
def execFbRd16 (off : BitVec 12) (s : State) : Result :=
  if offPastFb off then refuse .fbRange s
  else if offOdd off then refuse .fbAlign s
  else match s.fb.load off.toNat, s.fb.load (off.toNat + 1) with
    | some lo, some hi => answer (zext64 (hi ++ lo)) s
    | _, _ => refuse .fbUndefined s

/-- `fb.wr16` (R183): FB[off] <- data[7:0], FB[off+1] <- data[15:8]. -/
def execFbWr16 (off : BitVec 12) (data : Half) (s : State) : Result :=
  if offPastFb off then refuse .fbRange s
  else if offOdd off then refuse .fbAlign s
  else complete (s.withFb (s.fb.store off.toNat (leBytes 2 data)))

end Sys2Proof.Machine
end

