-- ==== Sys2Proof/Machine/Terminal.lean ====
section
/-! DEFINITION. The TERM's primitives and commands (spec/41_terminal.md R140 to R149). -/

namespace Sys2Proof.Machine

/-! ## Primitives (R140 to R143) -/

/-- The FB offset of the cell (r, c): row-major, two bytes a cell (R53). -/
def cellOffset (r c : Nat) : Nat := 2 * (80 * r + c)

/-- `put_cell(r, c, ch, attr)`: the character byte, then the attribute byte (R140). -/
def putCell (r c : Nat) (ch attr : Byte) (m : Memory) : Memory := m.store (cellOffset r c) [ch, attr]

/-- `n` blank cells, each (0x20, COLOR) (R141). -/
def blankCells (n : Nat) (color : Byte) : List Byte := (List.replicate n [0x20#8, color]).flatten

/-- FB after `scroll()`: rows 1 to 24 copied to rows 0 to 23, value or undefined, then row 24 blank (R143). That the
copy is the rule's ascending loop: notes/assumptions/11.md. -/
def scrollFb (color : Byte) (m : Memory) : Memory :=
  (m.copy 0 (cellOffset 1 0) (cellOffset 24 0)).store (cellOffset 24 0) (blankCells 80 color)

/-- `scroll()`: FB moved up a row, `ROW <- 24`; COL and HWCUR stay (R143). -/
def State.scrolled (s : State) : State := (s.withFb (scrollFb s.color s.fb)).withCursor 24 s.col

/-- `if ROW = 25: scroll()`: the one test of a tm.putc (R144, R150, R255). -/
def State.scrolledIfOff (s : State) : State := if s.row = 25 then s.scrolled else s

/-- The cursor one column on, wrapped to the next row at column 80 (R144). -/
def State.advanced (s : State) : State :=
  if s.col + 1 = 80 then s.withCursor (s.row + 1) 0 else s.withCursor s.row (s.col + 1)

/-- (ROW, COL) is a cell of the grid, as put_cell asks (R140). -/
def State.onGrid (s : State) : Bool := decide (s.row.toNat < 25) && decide (s.col.toNat < 80)

/-- The character branch of tm.putc: only 0x0A and 0x0D are control characters (R144, R151). `none` where it would draw
outside the grid. -/
def State.typed (ch : Byte) (s : State) : Option State :=
  if ch = 0x0A#8 then some (s.withCursor (s.row + 1) 0)
  else if ch = 0x0D#8 then some (s.withCursor s.row 0)
  else if s.onGrid then some ((s.withFb (putCell s.row.toNat s.col.toNat ch s.color s.fb)).advanced)
  else none

/-! ## Commands (R144 to R149) -/

/-- `tm.putc` (R144). The fault is out of every run's reach (notes/assumptions/8.md). -/
def execTmPutc (ch : Byte) (s : State) : Result :=
  match s.typed ch with
  | none => .fault .cursorOffGrid
  | some t => complete t.scrolledIfOff.synced

/-- `tm.scroll` (R145): HWCUR is not synced. -/
def execTmScroll (s : State) : Result := complete s.scrolled

/-- `tm.clear` (R146): the 2000 cells blank, the cursor home, HWCUR synced. -/
def execTmClear (s : State) : Result :=
  complete ((s.withFb (s.fb.store 0 (blankCells 2000 s.color))).withCursor 0 0).synced

/-- `tm.setcolor` (R147): `COLOR <- { bg, fg }`. -/
def execTmSetcolor (fg bg : BitVec 4) (s : State) : Result := complete (s.withColor (bg ++ fg))

/-- The value of `tm.rdstate`: { 24'b0, HWCUR, COLOR, zext_8(COL), zext_8(ROW) } (R149). -/
def termWord (s : State) : Quad := 0#24 ++ s.hwcur ++ s.color ++ s.col.setWidth 8 ++ s.row.setWidth 8

/-- `tm.rdstate` (R149). -/
def execTmRdstate (s : State) : Result := answer (termWord s) s

end Sys2Proof.Machine
end

