-- ==== Sys2Proof/Machine/Dispatch.lean ====
section
/-! DEFINITION. The meaning of every command, one arm for each constructor of Instr. -/

namespace Sys2Proof.Machine

def exec (i : Instr) (s : State) : Host.Outcome State Fault Refusal :=
  match i with
  | .dtEncode base limit access flags => Sys2Proof.Machine.execDtEncode base limit access flags s
  | .dtBuild => Sys2Proof.Machine.execDtBuild s
  | .dtInstall => Sys2Proof.Machine.execDtInstall s
  | .dtRd8 off => Sys2Proof.Machine.execDtRd8 off s
  | .dtRdtp => Sys2Proof.Machine.execDtRdtp s
  | .tmPutc ch => Sys2Proof.Machine.execTmPutc ch s
  | .tmScroll => Sys2Proof.Machine.execTmScroll s
  | .tmClear => Sys2Proof.Machine.execTmClear s
  | .tmSetcolor fg bg => Sys2Proof.Machine.execTmSetcolor fg bg s
  | .tmRdstate => Sys2Proof.Machine.execTmRdstate s
  | .fbRd8 off => Sys2Proof.Machine.execFbRd8 off s
  | .fbWr8 off data => Sys2Proof.Machine.execFbWr8 off data s
  | .fbRd16 off => Sys2Proof.Machine.execFbRd16 off s
  | .fbWr16 off data => Sys2Proof.Machine.execFbWr16 off data s
  | .fmtUtoa value base upper buf cap => Sys2Proof.Machine.execFmtUtoa value base upper buf cap s
  | .fmtItoa value buf cap => Sys2Proof.Machine.execFmtItoa value buf cap s
  | .fmtPtoa value buf cap => Sys2Proof.Machine.execFmtPtoa value buf cap s

end Sys2Proof.Machine
end

