-- ==== Sys2Proof/Machine/Execute.lean ====
section
/-! DEFINITION. Running one command word, and a list of commands one after another (spec/30_encoding.md R88,
spec/60_exceptions.md R232, R233, spec/70_reset_and_hazards.md R257). -/

namespace Sys2Proof.Machine

/-- One command word: BadOpcode and ReservedBits come before every check of the command's own (R88, R232). -/
def runWord (w : CommandWord) (s : State) : Result :=
  match decode w with
  | .error e => refuse (decodeCause e) s
  | .ok i => exec i s

/-- One step of the block: it takes the client's next command and runs it to completion (R257). With no command handed
over it does nothing and its state stays (R240; notes/assumptions/6.md). -/
def runNext (s : State) : Result :=
  match s.pending with
  | [] => .next s
  | c :: rest => runWord c.word (s.accept c rest)

/-- Commands run in list order, each seeing every effect of the one before (R22, R257). -/
def execAll : List Instr → State → Result
  | [], s => .next s
  | i :: is, s =>
    match exec i s with
    | .next t => execAll is t
    | .fault f => .fault f
    | .refused r => .refused r

end Sys2Proof.Machine
end

