-- ==== Sys2Proof/Machine/Step.lean ====
section
/-! DEFINITION. The step of the machine, and the placing of a word where the step takes its next command. -/

namespace Sys2Proof.Machine

/-- One step: the client's next command, run to completion (spec/70_reset_and_hazards.md R257). -/
def step (s : State) : Host.Outcome State Fault Refusal := runNext s

/-- `s` with the low `nbits` bits of `w`, every higher bit 0, offered as the client's next command. -/
def State.withFetchWord (s : State) (nbits w : Nat) : State := s.offer (BitVec.ofNat 128 (w % 2 ^ nbits))

end Sys2Proof.Machine
end

