-- ==== Sys2Proof/Machine/Assembler.lean ====
section
/-! DEFINITION. The assembler of spec/30_encoding.md R85 and R86: source lines to commands, pseudo-instructions expanded.
Nothing of the machine depends on it. What R85 leaves open of the text form: notes/assumptions/13.md. -/

namespace Sys2Proof.Machine

/-! ## From a source line to its commands -/

/-- The assembler expression `sel(index, rpl)`: the constant index*8 + rpl (R86, R107). DESIGN CHOICE: neither operand
has a bound here, though a selector's index has 13 bits and its rpl 2: from index 8192 on the constant is past 16 bits, and
`readOperand` passes no rpl above 3 (notes/assumptions/13.md). -/
def selValue (index rpl : Nat) : Nat := index * 8 + rpl

/-- The commands of a source line, in order: one for a mnemonic, the expansion of R86 for a pseudo-instruction. -/
def expand : Source → List Instr
  | .dtEncode base limit access flags =>
      [.dtEncode (BitVec.ofNat 32 base) (BitVec.ofNat 20 limit) (BitVec.ofNat 8 access) (BitVec.ofNat 4 flags)]
  | .dtBuild => [.dtBuild]
  | .dtInstall => [.dtInstall]
  | .dtRd8 off => [.dtRd8 (BitVec.ofNat 6 off)]
  | .dtRdtp => [.dtRdtp]
  | .tmPutc ch => [.tmPutc (BitVec.ofNat 8 ch)]
  | .tmScroll => [.tmScroll]
  | .tmClear => [.tmClear]
  | .tmSetcolor fg bg => [.tmSetcolor (BitVec.ofNat 4 fg) (BitVec.ofNat 4 bg)]
  | .tmRdstate => [.tmRdstate]
  | .fbRd8 off => [.fbRd8 (BitVec.ofNat 12 off)]
  | .fbWr8 off data => [.fbWr8 (BitVec.ofNat 12 off) (BitVec.ofNat 8 data)]
  | .fbRd16 off => [.fbRd16 (BitVec.ofNat 12 off)]
  | .fbWr16 off data => [.fbWr16 (BitVec.ofNat 12 off) (BitVec.ofNat 16 data)]
  | .fmtUtoa value base upper buf cap =>
      [.fmtUtoa (BitVec.ofNat 32 value) (BitVec.ofNat 8 base) (decide (upper = 1)) (BitVec.ofNat 32 buf) (BitVec.ofNat 32 cap)]
  | .fmtItoa value buf cap => [.fmtItoa (BitVec.ofInt 32 value) (BitVec.ofNat 32 buf) (BitVec.ofNat 32 cap)]
  | .fmtPtoa value buf cap => [.fmtPtoa (BitVec.ofNat 32 value) (BitVec.ofNat 32 buf) (BitVec.ofNat 32 cap)]
  | .tmWrite s => s.map .tmPutc
  | .tmInit => [.tmSetcolor 7 0, .tmClear]
  | .dtBoot => [.dtBuild, .dtInstall]

/-- The assembler: a line it rejects gives no command (R85: it does not mask). -/
def assemble (src : Source) : Option (List Instr) := if src.wf then some (expand src) else none

/-! ## From text to a source line (R85) -/

/-- The tokens of a line. -/
inductive Token where
  | word (s : List Char)
  | quoted (c : Char)
  | text (s : List Char)
  | comma
  | opened
  | closed
deriving DecidableEq, Repr

/-- Where the scan of a line stands. -/
inductive LexMode where
  | plain (acc : List Char)
  | quote
  | quoteEscape
  | quoteEnd (c : Char)
  | inText (acc : List Char)
  | inTextEscape (acc : List Char)
deriving DecidableEq, Repr

/-- The word gathered so far, before the tokens that follow it. -/
def flushWord (acc : List Char) (ts : List Token) : List Token := if acc = [] then ts else .word acc.reverse :: ts

/-- The escapes of R10 and R85. -/
def unescape (c : Char) : Option Char :=
  if c = 'n' then some (Char.ofNat 0x0A)
  else if c = 'r' then some (Char.ofNat 0x0D)
  else if c = '0' then some (Char.ofNat 0x00)
  else none

/-- A line's tokens; a comment starts with ";" (R85). DESIGN CHOICE: only outside quotes does it, and a comma, a parenthesis
or a quote ends a word as a blank does, so no blank need stand between a mnemonic and a quoted operand: tm.putc'A' and
tm.write"s" are taken (notes/assumptions/13.md). -/
def lex : LexMode → List Char → Option (List Token)
  | .plain acc, [] => some (flushWord acc [])
  | .plain acc, c :: cs =>
    if c = ';' then some (flushWord acc [])
    else if c.isWhitespace then (lex (.plain []) cs).map (flushWord acc)
    else if c = ',' then (lex (.plain []) cs).map (fun ts => flushWord acc (.comma :: ts))
    else if c = '(' then (lex (.plain []) cs).map (fun ts => flushWord acc (.opened :: ts))
    else if c = ')' then (lex (.plain []) cs).map (fun ts => flushWord acc (.closed :: ts))
    else if c = '\'' then (lex .quote cs).map (flushWord acc)
    else if c = '"' then (lex (.inText []) cs).map (flushWord acc)
    else lex (.plain (c :: acc)) cs
  | .quote, c :: cs => if c = '\\' then lex .quoteEscape cs else lex (.quoteEnd c) cs
  | .quoteEscape, c :: cs =>
    match unescape c with
    | some e => lex (.quoteEnd e) cs
    | none => none
  | .quoteEnd e, c :: cs => if c = '\'' then (lex (.plain []) cs).map (fun ts => .quoted e :: ts) else none
  | .inText acc, c :: cs =>
    if c = '"' then (lex (.plain []) cs).map (fun ts => .text acc.reverse :: ts)
    else if c = '\\' then lex (.inTextEscape acc) cs
    else lex (.inText (c :: acc)) cs
  | .inTextEscape acc, c :: cs =>
    match unescape c with
    | some e => lex (.inText (e :: acc)) cs
    | none => none
  | _, [] => none

/-- A digit's value in base 16, either case. -/
def digitValue (c : Char) : Option Nat :=
  if '0' ≤ c ∧ c ≤ '9' then some (c.toNat - '0'.toNat)
  else if 'a' ≤ c ∧ c ≤ 'f' then some (c.toNat - 'a'.toNat + 10)
  else if 'A' ≤ c ∧ c ≤ 'F' then some (c.toNat - 'A'.toNat + 10)
  else none

/-- Digits in a base, read left to right onto `acc`. -/
def readDigits (base : Nat) : Nat → List Char → Option Nat
  | acc, [] => some acc
  | acc, c :: cs =>
    match digitValue c with
    | some d => if d < base then readDigits base (acc * base + d) cs else none
    | none => none

/-- An unsigned literal: decimal, or hex after "0x" (R85). DESIGN CHOICE: leading zeros are taken
(notes/assumptions/13.md). -/
def readNat : List Char → Option Nat
  | '0' :: 'x' :: d :: ds => readDigits 16 0 (d :: ds)
  | d :: ds => readDigits 10 0 (d :: ds)
  | [] => none

/-- An operand as written. -/
inductive Operand where
  | num (n : Nat)
  /-- A negative decimal literal, by its magnitude: an fmt.itoa value alone (R85). -/
  | neg (n : Nat)
  /-- A character literal: a tm.putc ch alone (R85). -/
  | chr (b : Byte)
  /-- A string: a tm.write operand alone (R86). -/
  | str (s : List Byte)
deriving DecidableEq, Repr

/-- The ASCII code of a character (R10). DESIGN CHOICE: other characters are rejected (notes/assumptions/13.md). -/
def asciiCode (c : Char) : Option Byte := if c.toNat < 128 then some (BitVec.ofNat 8 c.toNat) else none

/-- The first operand of the tokens, and what follows it. DESIGN CHOICE: of sel(index, rpl) the rpl is 0 to 3 and the index
any literal; the number is then held to its field as a literal is (notes/assumptions/13.md). -/
def readOperand : List Token → Option (Operand × List Token)
  | .word w :: .opened :: .word i :: .comma :: .word r :: .closed :: rest =>
    match readNat i, readNat r with
    | some i, some r => if w = "sel".toList ∧ r < 4 then some (.num (selValue i r), rest) else none
    | _, _ => none
  | .word ('-' :: d :: ds) :: rest => (readDigits 10 0 (d :: ds)).map (fun n => (.neg n, rest))
  | .word w :: rest => (readNat w).map (fun n => (.num n, rest))
  | .quoted c :: rest => (asciiCode c).map (fun b => (.chr b, rest))
  | .text s :: rest => (s.mapM asciiCode).map (fun bs => (.str bs, rest))
  | _ => none

/-- The operands, separated by commas; `fuel` bounds how many. -/
def readOperands : (fuel : Nat) → List Token → Option (List Operand)
  | _, [] => some []
  | 0, _ => none
  | fuel + 1, ts =>
    match readOperand ts with
    | some (o, []) => some [o]
    | some (o, .comma :: rest) => if rest = [] then none else (readOperands fuel rest).map (fun os => o :: os)
    | _ => none

/-- The source line of a mnemonic and its operands, in the order of R85 and R86. -/
def sourceOf (m : List Char) : List Operand → Option Source
  | [] =>
    if m = "dt.build".toList then some .dtBuild
    else if m = "dt.install".toList then some .dtInstall
    else if m = "dt.rdtp".toList then some .dtRdtp
    else if m = "tm.scroll".toList then some .tmScroll
    else if m = "tm.clear".toList then some .tmClear
    else if m = "tm.rdstate".toList then some .tmRdstate
    else if m = "tm.init".toList then some .tmInit
    else if m = "dt.boot".toList then some .dtBoot
    else none
  | [.num a] =>
    if m = "dt.rd8".toList then some (.dtRd8 a)
    else if m = "tm.putc".toList then some (.tmPutc a)
    else if m = "fb.rd8".toList then some (.fbRd8 a)
    else if m = "fb.rd16".toList then some (.fbRd16 a)
    else none
  | [.chr b] => if m = "tm.putc".toList then some (.tmPutc b.toNat) else none
  | [.str s] => if m = "tm.write".toList then some (.tmWrite s) else none
  | [.num a, .num b] =>
    if m = "tm.setcolor".toList then some (.tmSetcolor a b)
    else if m = "fb.wr8".toList then some (.fbWr8 a b)
    else if m = "fb.wr16".toList then some (.fbWr16 a b)
    else none
  | [.num v, .num buf, .num cap] =>
    if m = "fmt.itoa".toList then some (.fmtItoa v buf cap)
    else if m = "fmt.ptoa".toList then some (.fmtPtoa v buf cap)
    else none
  | [.neg v, .num buf, .num cap] => if m = "fmt.itoa".toList then some (.fmtItoa (-v) buf cap) else none
  | [.num base, .num limit, .num access, .num flags] =>
    if m = "dt.encode".toList then some (.dtEncode base limit access flags) else none
  | [.num v, .num base, .num upper, .num buf, .num cap] =>
    if m = "fmt.utoa".toList then some (.fmtUtoa v base upper buf cap) else none
  | _ => none

/-- One line of text to its commands; a line that is a comment alone gives none (R85). DESIGN CHOICE: so does a blank line
(notes/assumptions/13.md). -/
def assembleLine (line : List Char) : Option (List Instr) :=
  match lex (.plain []) line with
  | none => none
  | some [] => some []
  | some (.word m :: ts) => ((readOperands ts.length ts).bind (sourceOf m)).bind assemble
  | some _ => none

/-- Lines of text to their commands, in order. DESIGN CHOICE: where one line is rejected the whole text is, and none of its
other lines gives a command (notes/assumptions/13.md). -/
def assembleLines : List (List Char) → Option (List Instr)
  | [] => some []
  | l :: ls => (assembleLine l).bind (fun is => (assembleLines ls).map (fun js => is ++ js))

end Sys2Proof.Machine
end

