-- ==== Sys2Proof/Safety.lean ====
section
/-! DEFINITION. What holds between commands, and what a safe outcome is, in the terms the claims use. -/

namespace Sys2Proof.Machine

/-- Every cell lies below `n`: the space ends there (R50). -/
abbrev Memory.below (n : Nat) (m : Memory) : Prop := ∀ c ∈ m, c.1 < n

/-- Every offset below `n` holds a value. -/
def Memory.defined (n : Nat) (m : Memory) : Prop := ∀ a, a < n → (m.load a).isSome

/-- The three spaces are in canonical form and within their sizes (R50). -/
abbrev State.MemoriesOk (s : State) : Prop :=
  s.tbl.wf ∧ s.tbl.below tableLength ∧ s.fb.wf ∧ s.fb.below fbLength ∧ s.hbuf.wf ∧ s.hbuf.below (2 ^ 32)

/-- ROW < 25 and COL < 80 (R32, R33, R39). -/
abbrev State.CursorOk (s : State) : Prop := s.row.toNat < 25 ∧ s.col.toNat < 80

/-- While BUILT is 0, TBL and TP hold no value; once it is 1, they hold what GDT_INIT and TABLE_BASE say (R26, R110, R112). -/
abbrev State.TableOk (s : State) : Prop :=
  if s.built then s.tbl = cellsFrom 0 (tableBytes s.params.gdtInit) ∧ s.tp = some (builtPointer s.params)
  else s.tbl = [] ∧ s.tp = none

/-- The log holds the two requests of one install, LoadTable first, or nothing; only a built table is installed (R27, R31,
R115, R258). -/
abbrev State.InstallOk (s : State) : Prop :=
  if s.installed then s.built = true ∧
    s.cpuEvents = [.loadTable 0x002F s.params.tableBase, .reloadSelectors 0x0008 0x0010]
  else s.cpuEvents = []

/-- STATUS is a code of R231, and REFUSED_MARK is set whenever it is a refusal's (R23, R25, R233). -/
abbrev State.StatusOk (s : State) : Prop := s.status.toNat ≤ 11 ∧ (s.status ≠ 0 → s.refusedMark = true)

/-- What holds between commands: reset has it and every step keeps it. -/
structure State.Inv (s : State) : Prop where
  memories : s.MemoriesOk
  cursor : s.CursorOk
  table : s.TableOk
  install : s.InstallOk
  status : s.StatusOk

/-- HWCUR is the cursor's linear index (R39, R254). -/
abbrev State.Lockstep (s : State) : Prop := s.hwcur.toNat = 80 * s.row.toNat + s.col.toNat

end Sys2Proof.Machine
end

