-- ==== Sys2Proof/Certificates/Slice0/Obligations.lean ====
section
/-! DEFINITION. The statements for the provers: what the numbered rules of spec/ say the block does. -/

namespace Sys2Proof.Spec

open Sys2Proof.Machine

/-- The mask and the match of each row of spec/opcode_table.json. -/
def row : Mnemonic → CommandWord × CommandWord
  | .dtEncode   => (0xFFFFFFFFFFFFFF0000000000000000FF#128, 0x01#128)
  | .dtBuild    => (0xFFFFFFFFFFFFFFFFFFFFFFFFFFFFFFFF#128, 0x02#128)
  | .dtInstall  => (0xFFFFFFFFFFFFFFFFFFFFFFFFFFFFFFFF#128, 0x03#128)
  | .dtRd8      => (0xFFFFFFFFFFFFFFFFFFFFFFFFFFFFC0FF#128, 0x04#128)
  | .dtRdtp     => (0xFFFFFFFFFFFFFFFFFFFFFFFFFFFFFFFF#128, 0x05#128)
  | .tmPutc     => (0xFFFFFFFFFFFFFFFFFFFFFFFFFFFF00FF#128, 0x10#128)
  | .tmScroll   => (0xFFFFFFFFFFFFFFFFFFFFFFFFFFFFFFFF#128, 0x11#128)
  | .tmClear    => (0xFFFFFFFFFFFFFFFFFFFFFFFFFFFFFFFF#128, 0x12#128)
  | .tmSetcolor => (0xFFFFFFFFFFFFFFFFFFFFFFFFFFFF00FF#128, 0x13#128)
  | .tmRdstate  => (0xFFFFFFFFFFFFFFFFFFFFFFFFFFFFFFFF#128, 0x14#128)
  | .fbRd8      => (0xFFFFFFFFFFFFFFFFFFFFFFFFFFF000FF#128, 0x18#128)
  | .fbWr8      => (0xFFFFFFFFFFFFFFFFFFFFFFFFF00000FF#128, 0x19#128)
  | .fbRd16     => (0xFFFFFFFFFFFFFFFFFFFFFFFFFFF000FF#128, 0x1A#128)
  | .fbWr16     => (0xFFFFFFFFFFFFFFFFFFFFFFF0000000FF#128, 0x1B#128)
  | .fmtUtoa    => (0x0000000000000000FFFE0000000000FF#128, 0x20#128)
  | .fmtItoa    => (0x0000000000000000FFFFFF00000000FF#128, 0x21#128)
  | .fmtPtoa    => (0x0000000000000000FFFFFF00000000FF#128, 0x22#128)

/-- The outcome of a refused command with this code: STATUS and REFUSED_MARK written, nothing else (R233). -/
def refusedWith (code : Byte) (s : State) : Result := .next { s with status := code, refusedMark := true }

/-- The command word of a number. -/
def wordOf (n : Nat) : CommandWord := BitVec.ofNat 128 n

/-- The DTE's words of R89, by their commands. -/
def sampleWordsDte : List (Instr × CommandWord) :=
  [(.dtEncode 0 0xFFFFF 0x9A 0xC, 0x00000000000000C9AFFFFF0000000001#128),
   (.dtEncode 0x12345678 0xABCDE 0x9A 0xC, 0x00000000000000C9AABCDE1234567801#128),
   (.dtBuild, 0x02#128), (.dtInstall, 0x03#128), (.dtRd8 14, 0x0E04#128), (.dtRdtp, 0x05#128)]

/-- The TERM's words of R89. -/
def sampleWordsTerm : List (Instr × CommandWord) :=
  [(.tmPutc 0x41, 0x4110#128), (.tmPutc 0x0A, 0x0A10#128), (.tmScroll, 0x11#128), (.tmClear, 0x12#128),
   (.tmSetcolor 7 0, 0x0713#128), (.tmSetcolor 4 1, 0x1413#128), (.tmRdstate, 0x14#128), (.fbRd8 1, 0x0118#128),
   (.fbWr8 0 0x41, 0x04100019#128), (.fbRd16 160, 0xA01A#128), (.fbWr16 3998 0x1E58, 0x01E58F9E1B#128)]

/-- The FMT's words of R89. -/
def sampleWordsFmt : List (Instr × CommandWord) :=
  [(.fmtUtoa 0xDEADBEEF 16 true 0x1000 16, 0x0000001000001000000110DEADBEEF20#128),
   (.fmtItoa (BitVec.ofInt 32 (-2147483648)) 0x1000 12, 0x0000000C000010000000008000000021#128),
   (.fmtPtoa 0x1234ABCD 0x2000 11, 0x0000000B000020000000001234ABCD22#128)]

/-- The words of R89. -/
def sampleWords : List (Instr × CommandWord) := sampleWordsDte ++ sampleWordsTerm ++ sampleWordsFmt

/-- FB[dst] <- FB[src], value or undefined: one assignment of the loop of R143. -/
def copyByte (m : Memory) (dst src : Nat) : Memory :=
  match m.load src with
  | some v => m.store dst [v]
  | none => m.filter (fun c => decide (c.1 ≠ dst))

/-- The first loop of R143: r in 1 .. 24 ascending, c in 0 .. 79 ascending, the character byte and then the attribute byte. -/
def copyLoop (m : Memory) : Memory :=
  (List.range 24).foldl (fun m r' =>
    (List.range 80).foldl (fun m c =>
      copyByte (copyByte m (cellOffset r' c) (cellOffset (r' + 1) c)) (cellOffset r' c + 1) (cellOffset (r' + 1) c + 1)) m) m

/-- The second loop of R143: c in 0 .. 79, put_cell(24, c, 0x20, COLOR). -/
def blankLoop (color : Byte) (m : Memory) : Memory :=
  (List.range 80).foldl (fun m c => putCell 24 c 0x20 color m) m

/-- The loops of R146: r in 0 .. 24, c in 0 .. 79, put_cell(r, c, 0x20, COLOR). -/
def clearLoop (color : Byte) (m : Memory) : Memory :=
  (List.range 25).foldl (fun m r => (List.range 80).foldl (fun m c => putCell r c 0x20 color m) m) m

/-- The byte of a blank grid at an FB offset: 0x20 at an even one, the colour at an odd one (R53, R141). -/
def blankByte (color : Byte) (a : Nat) : Byte := if a % 2 = 0 then 0x20 else color

/-- `ch` is neither of the two control characters of tm.putc. -/
def drawn (ch : Byte) : Prop := ch ≠ 0x0A ∧ ch ≠ 0x0D

/-- An FMT command with text `text` completes as R200 and R208 say, for cap > 0: the prefix that fits and the terminator at
buf, every other HBUF byte as before, RES the prefix's length, and nothing else but STATUS. -/
def WritesText (i : Instr) (text : List Byte) (buf cap : Word) (s : State) : Prop :=
  ∃ t n, exec i s = .next t ∧ n = min text.length (cap.toNat - 1) ∧
    (∀ k, k < n → t.hbuf.load (buf.toNat + k) = text[k]?) ∧
    t.hbuf.load (buf.toNat + n) = some 0 ∧
    (∀ a, a < buf.toNat ∨ buf.toNat + n < a → t.hbuf.load a = s.hbuf.load a) ∧
    buf.toNat + n < buf.toNat + cap.toNat ∧
    t = { s with hbuf := t.hbuf, res := some (BitVec.ofNat 64 n), status := 0 }

/-- The nine commands that return a value (R24). -/
def returnsValue : Instr → Bool
  | .dtEncode .. => true
  | .dtBuild => false
  | .dtInstall => false
  | .dtRd8 .. => true
  | .dtRdtp => true
  | .tmPutc .. => false
  | .tmScroll => false
  | .tmClear => false
  | .tmSetcolor .. => false
  | .tmRdstate => true
  | .fbRd8 .. => true
  | .fbWr8 .. => false
  | .fbRd16 .. => true
  | .fbWr16 .. => false
  | .fmtUtoa .. => true
  | .fmtItoa .. => true
  | .fmtPtoa .. => true

/-- The five read ports (R57, R240). -/
def isRead : Instr → Bool
  | .dtEncode .. => false
  | .dtBuild => false
  | .dtInstall => false
  | .dtRd8 .. => true
  | .dtRdtp => true
  | .tmPutc .. => false
  | .tmScroll => false
  | .tmClear => false
  | .tmSetcolor .. => false
  | .tmRdstate => true
  | .fbRd8 .. => true
  | .fbWr8 .. => false
  | .fbRd16 .. => true
  | .fbWr16 .. => false
  | .fmtUtoa .. => false
  | .fmtItoa .. => false
  | .fmtPtoa .. => false

/-- A command whose whole effect is to write values that its operands, the parameters or COLOR give: all that write a
space or a register but tm.putc and tm.scroll, which move the cursor or the rows, and dt.install, which logs requests. -/
def isWrite (i : Instr) : Bool :=
  [.dtBuild, .tmClear, .tmSetcolor, .fbWr8, .fbWr16, .fmtUtoa, .fmtItoa, .fmtPtoa].contains i.mnemonic

/-- An FMT command. -/
def isFmt (i : Instr) : Bool := i.mnemonic == .fmtUtoa || i.mnemonic == .fmtItoa || i.mnemonic == .fmtPtoa

/-- A command that writes FB (R50). -/
def writesFb (i : Instr) : Bool :=
  i.mnemonic == .tmPutc || i.mnemonic == .tmScroll || i.mnemonic == .tmClear || i.mnemonic == .fbWr8 || i.mnemonic == .fbWr16

end Sys2Proof.Spec

section Statements

open Sys2Proof Sys2Proof.Machine Sys2Proof.Spec

/-! ## Encoding (30_encoding.md) -/

/-- R70, R72 to R79, R87, R88: every command's word, and its 16 bytes, decode to that command, every operand at every
value its field admits. -/
def Obligations.EncodedCommandDecodesToItself : Prop :=
  ∀ i : Instr, decode (encode i) = .ok i ∧ decodeBytes (encodeBytes i) = .ok i

/-- R84, R88: a word that decodes is the encoding of what it decodes to, so no bit of a legal word is dropped. -/
def Obligations.DecodedWordEncodesToItself : Prop :=
  ∀ w i, decode w = .ok i → encode i = w

/-- R88 and opcode_table.json: a word is the command of a row exactly when (w AND mask) = match, a BadOpcode exactly when
bits [7:0] match no row, a ReservedBits exactly when bits [7:0] are a row's opcode and that row's test fails. -/
def Obligations.WordIsItsRowsCommandExactlyWhenMasked : Prop :=
  (∀ w m, (∃ i, decode w = .ok i ∧ i.mnemonic = m) ↔ w &&& (row m).1 = (row m).2) ∧
  (∀ w, decode w = .error .badOpcode ↔ ∀ m, w &&& 0xFF#128 ≠ (row m).2) ∧
  (∀ w, decode w = .error .reservedBits ↔ ∃ m, w &&& 0xFF#128 = (row m).2 ∧ w &&& (row m).1 ≠ (row m).2)

/-- R72 to R79, R87: the word with each operand, as a number, at its bits decodes to the command with those operands. -/
def Obligations.FieldsSitAtTheirBits : Prop :=
  (∀ (base : Word) (limit : BitVec 20) (access : Byte) (flags : BitVec 4),
    decode (wordOf (0x01 + base.toNat * 2 ^ 8 + limit.toNat * 2 ^ 40 + access.toNat * 2 ^ 60 + flags.toNat * 2 ^ 68)) =
      .ok (.dtEncode base limit access flags)) ∧
  decode (wordOf 0x02) = .ok .dtBuild ∧ decode (wordOf 0x03) = .ok .dtInstall ∧ decode (wordOf 0x05) = .ok .dtRdtp ∧
  decode (wordOf 0x11) = .ok .tmScroll ∧ decode (wordOf 0x12) = .ok .tmClear ∧ decode (wordOf 0x14) = .ok .tmRdstate ∧
  (∀ off : BitVec 6, decode (wordOf (0x04 + off.toNat * 2 ^ 8)) = .ok (.dtRd8 off)) ∧
  (∀ ch : Byte, decode (wordOf (0x10 + ch.toNat * 2 ^ 8)) = .ok (.tmPutc ch)) ∧
  (∀ fg bg : BitVec 4, decode (wordOf (0x13 + fg.toNat * 2 ^ 8 + bg.toNat * 2 ^ 12)) = .ok (.tmSetcolor fg bg)) ∧
  (∀ off : BitVec 12, decode (wordOf (0x18 + off.toNat * 2 ^ 8)) = .ok (.fbRd8 off)) ∧
  (∀ (off : BitVec 12) (data : Byte),
    decode (wordOf (0x19 + off.toNat * 2 ^ 8 + data.toNat * 2 ^ 20)) = .ok (.fbWr8 off data)) ∧
  (∀ off : BitVec 12, decode (wordOf (0x1A + off.toNat * 2 ^ 8)) = .ok (.fbRd16 off)) ∧
  (∀ (off : BitVec 12) (data : Half),
    decode (wordOf (0x1B + off.toNat * 2 ^ 8 + data.toNat * 2 ^ 20)) = .ok (.fbWr16 off data)) ∧
  (∀ (value : Word) (base : Byte) (upper : Bool) (buf cap : Word),
    decode (wordOf (0x20 + value.toNat * 2 ^ 8 + base.toNat * 2 ^ 40 + upper.toNat * 2 ^ 48 + buf.toNat * 2 ^ 64 +
      cap.toNat * 2 ^ 96)) = .ok (.fmtUtoa value base upper buf cap)) ∧
  (∀ value buf cap : Word,
    decode (wordOf (0x21 + value.toNat * 2 ^ 8 + buf.toNat * 2 ^ 64 + cap.toNat * 2 ^ 96)) = .ok (.fmtItoa value buf cap)) ∧
  (∀ value buf cap : Word,
    decode (wordOf (0x22 + value.toNat * 2 ^ 8 + buf.toNat * 2 ^ 64 + cap.toNat * 2 ^ 96)) = .ok (.fmtPtoa value buf cap))

/-- R81: the illegal opcodes are exactly those listed, a word with one is refused with code 1 and changes no other state,
and the all-zero word is one. -/
def Obligations.IllegalOpcodesAreRefusedAsBadOpcode : Prop :=
  (∀ w : CommandWord, decode w = .error .badOpcode ↔
    let op := w.toNat % 256
    op = 0 ∨ (0x06 ≤ op ∧ op ≤ 0x0F) ∨ (0x15 ≤ op ∧ op ≤ 0x17) ∨ (0x1C ≤ op ∧ op ≤ 0x1F) ∨ 0x23 ≤ op) ∧
  (∀ w s, decode w = .error .badOpcode → runWord w s = refusedWith 1 s) ∧
  decode 0#128 = .error .badOpcode

/-- R82: a word with a legal opcode and a reserved bit set is refused with code 2 and changes no other state. -/
def Obligations.ReservedBitsAreRefused : Prop :=
  ∀ m w s, w &&& 0xFF#128 = (row m).2 → w &&& (row m).1 ≠ (row m).2 → runWord w s = refusedWith 2 s

/-- R89: the twenty sample commands and their words, both ways. -/
def Obligations.SampleWordsOfTheEncodingTable : Prop :=
  (∀ p ∈ sampleWords, encode p.1 = p.2 ∧ decode p.2 = .ok p.1) ∧
  encodeBytes (.tmPutc 0x41) = [0x10, 0x41] ++ List.replicate 14 0

/-! ## The step (10_state.md R22, 70_reset_and_hazards.md R257) -/

/-- R257, R88: when the next word decodes to `i`, the step is exec of `i` at the state in which the client has handed the
command over. That the commands to come and cpu_if stand in State, so that this state has the rest in pending and the
command's level in cpuIf, is the model's choice (notes/assumptions/2.md, 3.md). -/
def Obligations.StepRunsTheDecodedCommand : Prop :=
  ∀ s c rest i, s.pending = c :: rest → decode c.word = .ok i →
    step s = exec i { s with pending := rest, cpuIf := c.cpuIf }

/-- R81, R82, R88: when the next word is no command, the step is its refusal. That the commands to come and cpu_if stand in
State, so that the step also leaves the rest in pending and the command's level in cpuIf, is the model's choice
(notes/assumptions/2.md, 3.md). -/
def Obligations.StepRefusesWhatIsNoCommand : Prop :=
  ∀ s c rest, s.pending = c :: rest →
    (decode c.word = .error .badOpcode → step s = refusedWith 1 { s with pending := rest, cpuIf := c.cpuIf }) ∧
    (decode c.word = .error .reservedBits → step s = refusedWith 2 { s with pending := rest, cpuIf := c.cpuIf })

/-- The model's choice (log 6), after R240 "Block state survives it unchanged, because no command runs": with no command
handed over, a step leaves the state. -/
def Obligations.StepWithNoCommandLeavesTheState : Prop :=
  ∀ s : State, s.pending = [] → step s = .next s

/-- R22 "No command changes which command comes next", and R38, R253: a command leaves the commands to come, the input
and the parameters (which the model holds in State: logs 2, 3, 4). -/
def Obligations.CommandsLeaveStreamInputAndParameters : Prop :=
  ∀ i s t, exec i s = .next t → t.pending = s.pending ∧ t.cpuIf = s.cpuIf ∧ t.params = s.params

/-! ## Refusals (60_exceptions.md) -/

/-- R233: a refused command writes STATUS and REFUSED_MARK and nothing else, with a code of R231. -/
def Obligations.RefusedCommandsWriteStatusAndMarkOnly : Prop :=
  ∀ w s t, runWord w s = .next t → t.status ≠ 0 →
    t = { s with status := t.status, refusedMark := true } ∧ t.status.toNat ≤ 11

/-- R25: a refused command sets REFUSED_MARK, nothing clears it, and a completed command does not set it. -/
def Obligations.MarkIsStickyAndSetByRefusalsAlone : Prop :=
  State.reset.refusedMark = false ∧
  ∀ w s t, runWord w s = .next t → t.refusedMark = (s.refusedMark || decide (t.status ≠ 0))

/-- R231, R232: each cause is reported with its code, the first that applies in the order of the table. -/
def Obligations.FirstCauseThatAppliesIsReported : Prop :=
  (∀ w s, decode w = .error .badOpcode → runWord w s = refusedWith 1 s) ∧
  (∀ w s, decode w = .error .reservedBits → runWord w s = refusedWith 2 s) ∧
  (∀ s, s.installed = true → exec .dtBuild s = refusedWith 4 s) ∧
  (∀ off s, 48 ≤ off.toNat → exec (.dtRd8 off) s = refusedWith 6 s) ∧
  (∀ off s, off.toNat < 48 → s.built = false → exec (.dtRd8 off) s = refusedWith 3 s) ∧
  (∀ s, s.built = false → exec .dtRdtp s = refusedWith 3 s) ∧
  (∀ s, s.built = false → exec .dtInstall s = refusedWith 3 s) ∧
  (∀ s, s.built = true → s.installed = true → exec .dtInstall s = refusedWith 4 s) ∧
  (∀ s, s.built = true → s.installed = false → s.cpuIf = true → exec .dtInstall s = refusedWith 5 s) ∧
  (∀ off s, 4000 ≤ off.toNat → exec (.fbRd8 off) s = refusedWith 7 s) ∧
  (∀ off s, off.toNat < 4000 → s.fb.load off.toNat = none → exec (.fbRd8 off) s = refusedWith 9 s) ∧
  (∀ off data s, 4000 ≤ off.toNat → exec (.fbWr8 off data) s = refusedWith 7 s) ∧
  (∀ off s, 4000 ≤ off.toNat → exec (.fbRd16 off) s = refusedWith 7 s) ∧
  (∀ off s, off.toNat < 4000 → off.toNat % 2 = 1 → exec (.fbRd16 off) s = refusedWith 8 s) ∧
  (∀ off s, off.toNat < 4000 → off.toNat % 2 = 0 → (s.fb.load off.toNat = none ∨ s.fb.load (off.toNat + 1) = none) →
    exec (.fbRd16 off) s = refusedWith 9 s) ∧
  (∀ off data s, 4000 ≤ off.toNat → exec (.fbWr16 off data) s = refusedWith 7 s) ∧
  (∀ off data s, off.toNat < 4000 → off.toNat % 2 = 1 → exec (.fbWr16 off data) s = refusedWith 8 s) ∧
  (∀ value base upper buf cap s, base ≠ 10 → base ≠ 16 → exec (.fmtUtoa value base upper buf cap) s = refusedWith 10 s) ∧
  (∀ value base upper buf cap s, (base = 10 ∨ base = 16) → 2 ^ 32 < buf.toNat + cap.toNat →
    exec (.fmtUtoa value base upper buf cap) s = refusedWith 11 s) ∧
  (∀ value buf cap s, 2 ^ 32 < buf.toNat + cap.toNat → exec (.fmtItoa value buf cap) s = refusedWith 11 s) ∧
  (∀ value buf cap s, 2 ^ 32 < buf.toNat + cap.toNat → exec (.fmtPtoa value buf cap) s = refusedWith 11 s)

/-- R232 "The other commands have no cause after decode": dt.encode and the TERM commands are never refused after decode. -/
def Obligations.TermAndEncodeCommandsAreNeverRefused : Prop :=
  (∀ base limit access flags s t, exec (.dtEncode base limit access flags) s = .next t → t.status = 0) ∧
  (∀ ch s t, exec (.tmPutc ch) s = .next t → t.status = 0) ∧
  (∀ s t, exec .tmScroll s = .next t → t.status = 0) ∧
  (∀ s t, exec .tmClear s = .next t → t.status = 0) ∧
  (∀ fg bg s t, exec (.tmSetcolor fg bg) s = .next t → t.status = 0) ∧
  (∀ s t, exec .tmRdstate s = .next t → t.status = 0)

/-! ## DTE (40_descriptor_encoder.md) -/

/-- R100, R52: the eight bytes of the entry that dt.encode returns, the lowest first. -/
def Obligations.EncodedEntryBytePositions : Prop :=
  ∀ (base : Word) (limit : BitVec 20) (access : Byte) (flags : BitVec 4) s,
    ∃ d : Quad, exec (.dtEncode base limit access flags) s = .next { s with res := some d, status := 0 } ∧
      leBytes 8 d = [limit.extractLsb' 0 8, limit.extractLsb' 8 8, base.extractLsb' 0 8, base.extractLsb' 8 8,
        base.extractLsb' 16 8, access, flags ++ limit.extractLsb' 16 4, base.extractLsb' 24 8]

/-- R103, R105: RES after dt.encode as a number; RES and STATUS alone are written, whatever the state. -/
def Obligations.DtEncodePacksItsOperands : Prop :=
  ∀ (base : Word) (limit : BitVec 20) (access : Byte) (flags : BitVec 4) s,
    exec (.dtEncode base limit access flags) s = .next { s with
      res := some (BitVec.ofNat 64 (limit.toNat % 2 ^ 16 + base.toNat % 2 ^ 24 * 2 ^ 16 + access.toNat * 2 ^ 40 +
        limit.toNat / 2 ^ 16 * 2 ^ 48 + flags.toNat * 2 ^ 52 + base.toNat / 2 ^ 24 * 2 ^ 56))
      status := 0 }

/-- R106: encode is a bijection, with the inverse the rule writes out. -/
def Obligations.EncodeIsABijectionWithItsInverse : Prop :=
  (∀ base limit access flags, let d := encodeEntry base limit access flags
    base = d.extractLsb' 56 8 ++ d.extractLsb' 16 24 ∧ limit = d.extractLsb' 48 4 ++ d.extractLsb' 0 16 ∧
      access = d.extractLsb' 40 8 ∧ flags = d.extractLsb' 52 4) ∧
  (∀ d : Quad, encodeEntry (d.extractLsb' 56 8 ++ d.extractLsb' 16 24) (d.extractLsb' 48 4 ++ d.extractLsb' 0 16)
    (d.extractLsb' 40 8) (d.extractLsb' 52 4) = d)

/-- R107, R108: a selector is index*8 + rpl with bit 2 zero, and the five fixed selectors have the listed values. -/
def Obligations.SelectorsAreIndexTimesEightPlusRpl : Prop :=
  (∀ (index : BitVec 13) (rpl : BitVec 2), (selector index rpl).toNat = index.toNat * 8 + rpl.toNat ∧
    (selector index rpl).extractLsb' 0 2 = rpl ∧ (selector index rpl).getLsbD 2 = false ∧
    (selector index rpl).extractLsb' 3 13 = index) ∧
  kernelCodeSelector = 0x08 ∧ kernelDataSelector = 0x10 ∧ userCodeSelector = 0x1B ∧ userDataSelector = 0x23 ∧
  taskStateSelector = 0x28

/-- R51, R110, R112: dt.build before install writes the six entries, each at its eight offsets, and TP, and sets BUILT;
RES and all else stay. After install it is refused. -/
def Obligations.DtBuildWritesSixEntriesAndThePointer : Prop :=
  (∀ s, s.installed = true → exec .dtBuild s = refusedWith 4 s) ∧
  ∀ s, s.installed = false → ∃ t, exec .dtBuild s = .next t ∧
    (∀ k e, [s.params.gdtInit.null, s.params.gdtInit.kernelCode, s.params.gdtInit.kernelData, s.params.gdtInit.userCode,
        s.params.gdtInit.userData, s.params.gdtInit.taskState][k]? = some e → ∀ j, j < 8 →
      t.tbl.load (8 * k + j) = some ((encodeEntry e.base e.limit e.access e.flags).extractLsb' (8 * j) 8)) ∧
    (∀ a, 48 ≤ a → t.tbl.load a = s.tbl.load a) ∧
    t = { s with tbl := t.tbl, tp := some (s.params.tableBase ++ 0x002F#16), built := true, status := 0 }

/-- R112, corner case: a second dt.build leaves the state the first left. -/
def Obligations.SecondBuildLeavesTheSameState : Prop :=
  ∀ s t, s.installed = false → exec .dtBuild s = .next t → exec .dtBuild t = .next t

/-- R111: with the default GDT_INIT, dt.build writes the 48 bytes of the table's "entry bytes" column. -/
def Obligations.DefaultTableBytes : Prop :=
  ∀ s, s.installed = false → s.params.gdtInit = gdtDefault → ∃ t, exec .dtBuild s = .next t ∧
    ∀ a, a < 48 → t.tbl.load a =
      ([0x00, 0x00, 0x00, 0x00, 0x00, 0x00, 0x00, 0x00, 0xFF, 0xFF, 0x00, 0x00, 0x00, 0x9A, 0xCF, 0x00,
        0xFF, 0xFF, 0x00, 0x00, 0x00, 0x92, 0xCF, 0x00, 0xFF, 0xFF, 0x00, 0x00, 0x00, 0xFA, 0xCF, 0x00,
        0xFF, 0xFF, 0x00, 0x00, 0x00, 0xF2, 0xCF, 0x00, 0x00, 0x00, 0x00, 0x00, 0x00, 0x00, 0x00, 0x00] : List Byte)[a]?

/-- R113, R114: dt.rd8 and dt.rdtp of a built table return its byte and its pointer, and write RES and STATUS alone. -/
def Obligations.DtReadsReturnByteAndPointer : Prop :=
  (∀ (off : BitVec 6) s b, off.toNat < 48 → s.built = true → s.tbl.load off.toNat = some b →
    exec (.dtRd8 off) s = .next { s with res := some (BitVec.ofNat 64 b.toNat), status := 0 }) ∧
  (∀ s p, s.built = true → s.tp = some p →
    exec .dtRdtp s = .next { s with res := some (BitVec.ofNat 64 p.toNat), status := 0 })

/-- R110, R112 to R114: what dt.build wrote reads back: byte off of the table is byte off mod 8 of entry off / 8, and the
pointer is 0x2F with TABLE_BASE above it. -/
def Obligations.BuiltTableReadsBack : Prop :=
  ∀ s, s.installed = false → ∃ t, exec .dtBuild s = .next t ∧
    (∀ (off : BitVec 6) e, [s.params.gdtInit.null, s.params.gdtInit.kernelCode, s.params.gdtInit.kernelData,
        s.params.gdtInit.userCode, s.params.gdtInit.userData, s.params.gdtInit.taskState][off.toNat / 8]? = some e →
      exec (.dtRd8 off) t = .next { t with
        res := some (((encodeEntry e.base e.limit e.access e.flags).extractLsb' (8 * (off.toNat % 8)) 8).setWidth 64)
        status := 0 }) ∧
    exec .dtRdtp t = .next { t with res := some (BitVec.ofNat 64 (0x2F + s.params.tableBase.toNat * 2 ^ 16)), status := 0 }

/-- R115, R258: dt.install of a built table, not yet installed, interrupts off, records LoadTable of TP and then
ReloadSelectors(0x0008, 0x0010), sets INSTALLED, and changes nothing else. -/
def Obligations.DtInstallRecordsLoadThenReload : Prop :=
  ∀ s p, s.built = true → s.installed = false → s.cpuIf = false → s.tp = some p →
    exec .dtInstall s = .next { s with
      cpuEvents := s.cpuEvents ++ [.loadTable (p.extractLsb' 0 16) (p.extractLsb' 16 32), .reloadSelectors 0x0008 0x0010]
      installed := true
      status := 0 }

/-- R116, R27: once INSTALLED is 1, no run of commands changes TBL, TP or the request log, or clears INSTALLED. -/
def Obligations.InstalledTableNeverChanges : Prop :=
  ∀ n s t, s.installed = true → Sys2Proof.core.run n s = .next t →
    t.tbl = s.tbl ∧ t.tp = s.tp ∧ t.cpuEvents = s.cpuEvents ∧ t.installed = true

/-! ## TERM (41_terminal.md) -/

/-- R144: a drawn character anywhere but (24, 79) writes the cell at the cursor with COLOR, moves on one column or wraps,
syncs HWCUR, and leaves every other byte of FB and all else. -/
def Obligations.PutcDrawsTheCellAndAdvances : Prop :=
  ∀ ch s, drawn ch → s.CursorOk → ¬(s.row.toNat = 24 ∧ s.col.toNat = 79) → ∃ t, exec (.tmPutc ch) s = .next t ∧
    t.fb.load (cellOffset s.row.toNat s.col.toNat) = some ch ∧
    t.fb.load (cellOffset s.row.toNat s.col.toNat + 1) = some s.color ∧
    (∀ a, a < cellOffset s.row.toNat s.col.toNat ∨ cellOffset s.row.toNat s.col.toNat + 2 ≤ a →
      t.fb.load a = s.fb.load a) ∧
    (if s.col.toNat = 79 then t.row.toNat = s.row.toNat + 1 ∧ t.col = 0
     else t.row = s.row ∧ t.col.toNat = s.col.toNat + 1) ∧
    t.hwcur.toNat = 80 * s.row.toNat + s.col.toNat + 1 ∧
    t = { s with fb := t.fb, row := t.row, col := t.col, hwcur := t.hwcur, status := 0 }

/-- R144: "\n" above the last row and "\r" anywhere move the cursor, sync HWCUR, and write no cell. -/
def Obligations.PutcControlCharactersMoveTheCursor : Prop :=
  (∀ s, s.row.toNat < 24 → s.col.toNat < 80 → exec (.tmPutc 0x0A) s = .next { s with
    row := s.row + 1, col := 0, hwcur := BitVec.ofNat 16 (80 * (s.row.toNat + 1)), status := 0 }) ∧
  (∀ s, s.CursorOk → exec (.tmPutc 0x0D) s = .next { s with
    col := 0, hwcur := BitVec.ofNat 16 (80 * s.row.toNat), status := 0 })

/-- R144, R143: "\n" on row 24, or a drawn character at (24, 79), scrolls: the rows move up with the character just drawn,
row 24 is blank at COLOR, the cursor is at (24, 0), HWCUR is 1920, and all else stays. -/
def Obligations.PutcAtTheBottomScrollsOnce : Prop :=
  ∀ ch s, s.row.toNat = 24 → s.col.toNat < 80 → (ch = 0x0A ∨ (drawn ch ∧ s.col.toNat = 79)) →
    ∃ t, exec (.tmPutc ch) s = .next t ∧
      (∀ a, a < 3840 → t.fb.load a =
        if ch ≠ 0x0A ∧ a = 3838 then some ch else if ch ≠ 0x0A ∧ a = 3839 then some s.color else s.fb.load (a + 160)) ∧
      (∀ a, 3840 ≤ a → a < 4000 → t.fb.load a = some (blankByte s.color a)) ∧
      (∀ a, 4000 ≤ a → t.fb.load a = s.fb.load a) ∧
      t = { s with fb := t.fb, row := 24, col := 0, hwcur := 1920, status := 0 }

/-- R39: ROW < 25 and COL < 80 hold at reset and every step keeps them, and after tm.putc or tm.clear
HWCUR = 80*ROW + COL. -/
def Obligations.CursorStaysOnTheGridAndInLockstep : Prop :=
  State.reset.CursorOk ∧
  (∀ s t, s.CursorOk → step s = .next t → t.CursorOk) ∧
  (∀ ch s t, s.CursorOk → exec (.tmPutc ch) s = .next t → t.Lockstep) ∧
  (∀ s t, exec .tmClear s = .next t → t.Lockstep)

/-- R150, R255: a tm.putc moves down at most one row and scrolls at most once, after the character is drawn and the cursor
has moved. -/
def Obligations.PutcScrollsAtMostOnceAfterTheMove : Prop :=
  ∀ ch s t, s.CursorOk → exec (.tmPutc ch) s = .next t → t.row.toNat ≤ s.row.toNat + 1 ∧
    ∃ m, (m = s.fb ∨ m = putCell s.row.toNat s.col.toNat ch s.color s.fb) ∧
      (t.fb = m ∨ (s.row.toNat = 24 ∧ t.row.toNat = 24 ∧ t.col = 0 ∧ t.fb = scrollFb s.color m))

/-- The model's fault (log 8): with the cursor outside the grid, where R140 gives put_cell no meaning, a drawn character
stops the model by name. -/
def Obligations.PutcOutsideTheGridFaults : Prop :=
  ∀ ch s, drawn ch → ¬s.CursorOk → exec (.tmPutc ch) s = .fault .cursorOffGrid

/-- R143, R145: tm.scroll moves every byte of rows 1 to 24 up a row, value or undefined, blanks row 24 at COLOR, sets ROW
to 24, and leaves COL, COLOR, HWCUR, RES and all else. -/
def Obligations.TmScrollMovesRowsUp : Prop :=
  ∀ s, ∃ t, exec .tmScroll s = .next t ∧
    (∀ a, a < 3840 → t.fb.load a = s.fb.load (a + 160)) ∧
    (∀ a, 3840 ≤ a → a < 4000 → t.fb.load a = some (blankByte s.color a)) ∧
    (∀ a, 4000 ≤ a → t.fb.load a = s.fb.load a) ∧
    t = { s with fb := t.fb, row := 24, status := 0 }

/-- R143: the model's block copy and blank row are the rule's loops, ascending, byte by byte, each byte value or undefined. -/
def Obligations.ScrollIsTheAscendingLoop : Prop :=
  ∀ color (m : Memory), m.wf → scrollFb color m = blankLoop color (copyLoop m)

/-- R146: tm.clear makes every cell (0x20, COLOR), homes and syncs the cursor, and leaves all else; its FB is that of the
rule's loops. -/
def Obligations.TmClearBlanksTheGrid : Prop :=
  ∀ s, ∃ t, exec .tmClear s = .next t ∧
    (∀ a, a < 4000 → t.fb.load a = some (blankByte s.color a)) ∧
    (∀ a, 4000 ≤ a → t.fb.load a = s.fb.load a) ∧
    t = { s with fb := t.fb, row := 0, col := 0, hwcur := 0, status := 0 } ∧
    (s.fb.wf → t.fb = clearLoop s.color s.fb)

/-- R153: a second tm.clear leaves the state one leaves. -/
def Obligations.ClearIsIdempotent : Prop :=
  ∀ s, ∃ t, exec .tmClear s = .next t ∧ exec .tmClear t = .next t

/-- R147: tm.setcolor stores fg | (bg << 4) in COLOR and touches nothing else: cells already written keep their colour. -/
def Obligations.SetColorStoresFgAndBg : Prop :=
  ∀ (fg bg : BitVec 4) s,
    exec (.tmSetcolor fg bg) s = .next { s with color := BitVec.ofNat 8 (fg.toNat ||| (bg.toNat <<< 4)), status := 0 }

/-- R149: tm.rdstate packs ROW, COL, COLOR and HWCUR into RES, and writes RES and STATUS alone. -/
def Obligations.RdStatePacksTheTerminalRegisters : Prop :=
  ∀ s, exec .tmRdstate s = .next { s with
    res := some (BitVec.ofNat 64 (s.row.toNat + s.col.toNat * 2 ^ 8 + s.color.toNat * 2 ^ 16 + s.hwcur.toNat * 2 ^ 24))
    status := 0 }

/-- R154: after tm.clear, 80 drawn characters leave the cursor at (1, 0) with nothing scrolled, and the 81st is written at
(1, 0). -/
def Obligations.WrapComesBeforeScroll : Prop :=
  ∀ s (cs : List Byte) c, cs.length = 80 → (∀ x ∈ cs, drawn x) → drawn c →
    ∃ t u, execAll (.tmClear :: cs.map .tmPutc) s = .next t ∧ t.row = 1 ∧ t.col = 0 ∧
      (∀ k, k < 80 → t.fb.load (2 * k) = cs[k]?) ∧
      exec (.tmPutc c) t = .next u ∧ u.fb.load 160 = some c ∧ u.fb.load 161 = some s.color ∧ u.row = 1 ∧ u.col = 1

/-! ## Frame buffer (42_frame_buffer.md) -/

/-- R180, R182: fb.rd8 and fb.rd16 of defined bytes return them, the higher byte above, and write RES and STATUS alone. -/
def Obligations.FbReadsReturnTheBytes : Prop :=
  (∀ (off : BitVec 12) s b, off.toNat < 4000 → s.fb.load off.toNat = some b →
    exec (.fbRd8 off) s = .next { s with res := some (BitVec.ofNat 64 b.toNat), status := 0 }) ∧
  (∀ (off : BitVec 12) s lo hi, off.toNat < 4000 → off.toNat % 2 = 0 → s.fb.load off.toNat = some lo →
    s.fb.load (off.toNat + 1) = some hi →
    exec (.fbRd16 off) s = .next { s with res := some (BitVec.ofNat 64 (lo.toNat + hi.toNat * 2 ^ 8)), status := 0 })

/-- R181, R183, R184: fb.wr8 and fb.wr16 in range and aligned write their one or two bytes, the low byte first; every other
byte of FB, the cursor, the colour and all else stay. -/
def Obligations.FbWritesStoreTheirBytesOnly : Prop :=
  (∀ (off : BitVec 12) (data : Byte) s, off.toNat < 4000 → ∃ t, exec (.fbWr8 off data) s = .next t ∧
    t.fb.load off.toNat = some data ∧
    (∀ a, a ≠ off.toNat → t.fb.load a = s.fb.load a) ∧ t = { s with fb := t.fb, status := 0 }) ∧
  (∀ (off : BitVec 12) (data : Half) s, off.toNat < 4000 → off.toNat % 2 = 0 → ∃ t, exec (.fbWr16 off data) s = .next t ∧
    t.fb.load off.toNat = some (data.extractLsb' 0 8) ∧ t.fb.load (off.toNat + 1) = some (data.extractLsb' 8 8) ∧
    (∀ a, a ≠ off.toNat → a ≠ off.toNat + 1 → t.fb.load a = s.fb.load a) ∧ t = { s with fb := t.fb, status := 0 })

/-- R54, R60: a read sees the last write: fb.rd8 after fb.wr8, fb.rd16 after fb.wr16, and the two halves by fb.rd8. -/
def Obligations.FbReadSeesTheLastWrite : Prop :=
  (∀ (off : BitVec 12) (data : Byte) s, off.toNat < 4000 → ∃ t, exec (.fbWr8 off data) s = .next t ∧
    exec (.fbRd8 off) t = .next { t with res := some (data.setWidth 64), status := 0 }) ∧
  (∀ (off : BitVec 12) (data : Half) s, off.toNat < 4000 → off.toNat % 2 = 0 → ∃ t, exec (.fbWr16 off data) s = .next t ∧
    exec (.fbRd16 off) t = .next { t with res := some (data.setWidth 64), status := 0 } ∧
    exec (.fbRd8 off) t = .next { t with res := some ((data.extractLsb' 0 8).setWidth 64), status := 0 } ∧
    exec (.fbRd8 (off + 1)) t = .next { t with res := some ((data.extractLsb' 8 8).setWidth 64), status := 0 })

/-! ## FMT (43_format_encoder.md) -/

/-- R201: the digit alphabet. -/
def Obligations.DigitAlphabet : Prop :=
  ∀ d : Fin 16, (digit d false).toNat = (if d.val < 10 then 0x30 + d.val else 0x61 + d.val - 10) ∧
    (digit d true).toNat = (if d.val < 10 then 0x30 + d.val else 0x41 + d.val - 10)

/-- R202: the text of a 32-bit value is its digits in the base, most significant first, with no leading zero but "0"
itself; 1 to 10 of them in base 10, 1 to 8 in base 16. -/
def Obligations.UtoaTextIsTheValuesDigits : Prop :=
  ∀ (v : Word) (base : Nat) (upper : Bool), base = 10 ∨ base = 16 → ∃ ds : List Nat,
    utoaText v.toNat base upper = ds.map (fun d => digit d upper) ∧ (∀ d ∈ ds, d < base) ∧
    ds.foldl (fun acc d => acc * base + d) 0 = v.toNat ∧
    1 ≤ ds.length ∧ ds.length ≤ (if base = 10 then 10 else 8) ∧ (ds.head? = some 0 → ds = [0])

/-- R204: the text of a negative value is "-" and the digits of its magnitude, that of -2^31 among them, which is the
rule's literal; of any other value, its digits; 1 to 11 bytes. -/
def Obligations.ItoaTextIsSignAndMagnitude : Prop :=
  (∀ v : Word, itoaText v =
    if v.toNat < 2 ^ 31 then utoaText v.toNat 10 false else 0x2D :: utoaText (2 ^ 32 - v.toNat) 10 false) ∧
  (∀ v : Word, 1 ≤ (itoaText v).length ∧ (itoaText v).length ≤ 11) ∧
  itoaText 0x80000000 = "-2147483648".toList.map (fun c => BitVec.ofNat 8 c.toNat)

/-- R206: the text of a pointer is "0x" and exactly eight lower-case hex digits, most significant first. -/
def Obligations.PtoaTextIsEightHexDigits : Prop :=
  ∀ v : Word, (ptoaText v).length = 10 ∧ (ptoaText v)[0]? = some 0x30 ∧ (ptoaText v)[1]? = some 0x78 ∧
    ∀ k, k < 8 → (ptoaText v)[2 + k]? = some (digit (v.toNat / 16 ^ (7 - k) % 16) false)

/-- R200, R203, R205, R207, R208: with cap > 0 and a buffer inside HBUF, each FMT command completes, writes the prefix that
fits and the terminator at buf and no other byte, and returns the prefix's length; nothing else changes. -/
def Obligations.FmtCommandsWriteThePrefixAndTerminator : Prop :=
  (∀ value base upper buf cap s, (base = 10 ∨ base = 16) → 0 < cap.toNat → buf.toNat + cap.toNat ≤ 2 ^ 32 →
    WritesText (.fmtUtoa value base upper buf cap) (utoaText value.toNat base.toNat upper) buf cap s) ∧
  (∀ value buf cap s, 0 < cap.toNat → buf.toNat + cap.toNat ≤ 2 ^ 32 →
    WritesText (.fmtItoa value buf cap) (itoaText value) buf cap s) ∧
  (∀ value buf cap s, 0 < cap.toNat → buf.toNat + cap.toNat ≤ 2 ^ 32 →
    WritesText (.fmtPtoa value buf cap) (ptoaText value) buf cap s)

/-- R200: with cap = 0 an FMT command writes nothing to HBUF and returns 0. -/
def Obligations.FmtWithNoCapacityWritesNothing : Prop :=
  (∀ value base upper buf s, (base = 10 ∨ base = 16) →
    exec (.fmtUtoa value base upper buf 0) s = .next { s with res := some 0, status := 0 }) ∧
  (∀ value buf s, exec (.fmtItoa value buf 0) s = .next { s with res := some 0, status := 0 }) ∧
  (∀ value buf s, exec (.fmtPtoa value buf 0) s = .next { s with res := some 0, status := 0 })

/-- R209: an FMT command's status, its RES and the bytes it writes are those of its operands alone, and it writes nothing
but HBUF, RES and STATUS, and when it is refused, and only then, REFUSED_MARK. -/
def Obligations.FmtDependsOnItsOperandsAlone : Prop :=
  ∀ i, isFmt i = true → ∃ (status : Byte) (res : Quad) (written : Nat → Option Byte), ∀ s, ∃ t, exec i s = .next t ∧
    t.status = status ∧ t.res = (if status = 0 then some res else s.res) ∧
    (∀ a, t.hbuf.load a = (written a).or (s.hbuf.load a)) ∧
    t = { s with hbuf := t.hbuf, res := t.res, status := status, refusedMark := s.refusedMark || decide (status ≠ 0) }

/-! ## Rules over all commands -/

/-- R24: RES has no value at reset; a command that returns a value writes it when it completes, every other command and
every refused command leaves it. -/
def Obligations.ResIsWrittenByCompletedResultCommandsAlone : Prop :=
  State.reset.res = none ∧
  (∀ i s t, exec i s = .next t → returnsValue i = true → t.status = 0 → t.res.isSome) ∧
  (∀ i s t, exec i s = .next t → (returnsValue i = false ∨ t.status ≠ 0) → t.res = s.res) ∧
  (∀ w s t, runWord w s = .next t → t.status ≠ 0 → t.res = s.res)

/-- R26 to R29, R31, R34, R35, R50: each space and register is written by the commands the spec names and no other. -/
def Obligations.EachStateHasItsWriters : Prop :=
  ∀ i s t, exec i s = .next t →
    (i ≠ .dtBuild → t.tbl = s.tbl ∧ t.tp = s.tp ∧ t.built = s.built) ∧
    (i ≠ .dtInstall → t.installed = s.installed ∧ t.cpuEvents = s.cpuEvents) ∧
    (i.mnemonic ≠ .tmSetcolor → t.color = s.color) ∧
    (i.mnemonic ≠ .tmPutc → i ≠ .tmClear → t.hwcur = s.hwcur ∧ t.col = s.col ∧ (i ≠ .tmScroll → t.row = s.row)) ∧
    (writesFb i = false → t.fb = s.fb) ∧
    (isFmt i = false → t.hbuf = s.hbuf)

/-- R57: a read changes RES and STATUS alone (and REFUSED_MARK when it is refused, and only then); a read done again gives the same; a write of
given values done again leaves the same state. -/
def Obligations.ReadsHaveNoSideEffectAndWritesRepeat : Prop :=
  (∀ i s t, isRead i = true → exec i s = .next t →
    t = { s with res := t.res, status := t.status, refusedMark := s.refusedMark || decide (t.status ≠ 0) } ∧
      exec i t = .next t) ∧
  (∀ i s t, isWrite i = true → exec i s = .next t → exec i t = .next t)

/-- R250: the reset value of every piece of state. -/
def Obligations.ResetValues : Prop :=
  State.reset.status = 0 ∧ State.reset.refusedMark = false ∧ State.reset.res = none ∧
  State.reset.built = false ∧ State.reset.installed = false ∧ State.reset.tp = none ∧
  (∀ a, State.reset.tbl.load a = none) ∧ State.reset.cpuEvents = [] ∧
  State.reset.row = 0 ∧ State.reset.col = 0 ∧ State.reset.color = 0x07 ∧ State.reset.hwcur = 0 ∧
  (∀ a, State.reset.fb.load a = none)

/-! ## The invariant -/

/-- The invariant holds at reset. -/
def Obligations.ResetHasTheInvariant : Prop := State.reset.Inv

/-- R26, R27, R31 to R33, R39, R50, R116: every step keeps the invariant: the spaces canonical and in bounds, the cursor
on the grid, TBL and TP as dt.build leaves them or without a value, at most one install in the log, STATUS a code of R231. -/
def Obligations.StepKeepsTheInvariant : Prop :=
  ∀ s t, s.Inv → step s = .next t → t.Inv

/-- R230 "Every command, refused or not, ends in one step; none blocks or hangs": from a state with the invariant, every
run of any length goes on, with no fault and no model refusal, and the invariant holds at its end. Past the client's last
command a step leaves the state, which is the model's choice (notes/assumptions/6.md). -/
def Obligations.EveryRunGoesOn : Prop :=
  ∀ n s, s.Inv → ∃ t, Sys2Proof.core.run n s = .next t ∧ t.Inv

/-! ## The assembler (30_encoding.md R85, R86) -/

/-- R86: the expansions of tm.write, tm.init and dt.boot, and the constant sel(index, rpl); a tm.write string that holds
0x00 is rejected. That the constant has no bound, from index 8192 or rpl 4 on, where R107 gives no selector, is the model's
choice (notes/assumptions/13.md). -/
def Obligations.PseudoInstructionsExpand : Prop :=
  (∀ s : List Byte, assemble (.tmWrite s) = if 0x00#8 ∈ s then none else some (s.map .tmPutc)) ∧
  assemble .tmInit = some [.tmSetcolor 7 0, .tmClear] ∧
  assemble .dtBoot = some [.dtBuild, .dtInstall] ∧
  (∀ index rpl, selValue index rpl = index * 8 + rpl)

/-- R85: of every command that has operands, the assembler takes the literals exactly when each fits its field (`upper` is
0 or 1), and never masks one; an fmt.itoa value in [-2^31, 2^31) goes to its two's complement. That an fmt.itoa value in
[2^31, 2^32) is taken, as the 32-bit word it is, is the model's choice (notes/assumptions/13.md). -/
def Obligations.AssemblerRejectsWideLiterals : Prop :=
  (∀ base limit access flags, assemble (.dtEncode base limit access flags) =
    if h : base < 2 ^ 32 ∧ limit < 2 ^ 20 ∧ access < 2 ^ 8 ∧ flags < 2 ^ 4 then
      some [.dtEncode (BitVec.ofNatLT base h.1) (BitVec.ofNatLT limit h.2.1) (BitVec.ofNatLT access h.2.2.1)
        (BitVec.ofNatLT flags h.2.2.2)]
    else none) ∧
  (∀ off, assemble (.dtRd8 off) = if h : off < 2 ^ 6 then some [.dtRd8 (BitVec.ofNatLT off h)] else none) ∧
  (∀ ch, assemble (.tmPutc ch) = if h : ch < 2 ^ 8 then some [.tmPutc (BitVec.ofNatLT ch h)] else none) ∧
  (∀ fg bg, assemble (.tmSetcolor fg bg) =
    if h : fg < 2 ^ 4 ∧ bg < 2 ^ 4 then some [.tmSetcolor (BitVec.ofNatLT fg h.1) (BitVec.ofNatLT bg h.2)] else none) ∧
  (∀ off, assemble (.fbRd8 off) = if h : off < 2 ^ 12 then some [.fbRd8 (BitVec.ofNatLT off h)] else none) ∧
  (∀ off data, assemble (.fbWr8 off data) =
    if h : off < 2 ^ 12 ∧ data < 2 ^ 8 then some [.fbWr8 (BitVec.ofNatLT off h.1) (BitVec.ofNatLT data h.2)] else none) ∧
  (∀ off, assemble (.fbRd16 off) = if h : off < 2 ^ 12 then some [.fbRd16 (BitVec.ofNatLT off h)] else none) ∧
  (∀ off data, assemble (.fbWr16 off data) =
    if h : off < 2 ^ 12 ∧ data < 2 ^ 16 then some [.fbWr16 (BitVec.ofNatLT off h.1) (BitVec.ofNatLT data h.2)] else none) ∧
  (∀ value base upper buf cap, assemble (.fmtUtoa value base upper buf cap) =
    if h : value < 2 ^ 32 ∧ base < 2 ^ 8 ∧ upper < 2 ∧ buf < 2 ^ 32 ∧ cap < 2 ^ 32 then
      some [.fmtUtoa (BitVec.ofNatLT value h.1) (BitVec.ofNatLT base h.2.1) (decide (upper = 1))
        (BitVec.ofNatLT buf h.2.2.2.1) (BitVec.ofNatLT cap h.2.2.2.2)]
    else none) ∧
  (∀ (value : Int) buf cap, -2 ^ 31 ≤ value → value < 2 ^ 32 → buf < 2 ^ 32 → cap < 2 ^ 32 →
    ∃ v b c, assemble (.fmtItoa value buf cap) = some [.fmtItoa v b c] ∧
      (if value < 2 ^ 31 then v.toInt = value else (v.toNat : Int) = value) ∧ b.toNat = buf ∧ c.toNat = cap) ∧
  (∀ (value : Int) buf cap, (value < -2 ^ 31 ∨ 2 ^ 32 ≤ value ∨ 2 ^ 32 ≤ buf ∨ 2 ^ 32 ≤ cap) →
    assemble (.fmtItoa value buf cap) = none) ∧
  (∀ value buf cap, assemble (.fmtPtoa value buf cap) =
    if h : value < 2 ^ 32 ∧ buf < 2 ^ 32 ∧ cap < 2 ^ 32 then
      some [.fmtPtoa (BitVec.ofNatLT value h.1) (BitVec.ofNatLT buf h.2.1) (BitVec.ofNatLT cap h.2.2)]
    else none)

end Statements
end

