-- ==== Sys2Proof/Laws/Bits.lean ====
section
/-! SUPPORT. The laws of bytes and bit fields. -/

namespace Sys2Proof

theorem leBytes_length {m : Nat} (n : Nat) (v : BitVec m) : (leBytes n v).length = n := by simp [leBytes]

/-- Byte k of the little-endian bytes is v[8k+7:8k] (R52). -/
theorem leBytes_getElem? {m : Nat} (n k : Nat) (v : BitVec m) (h : k < n) :
    (leBytes n v)[k]? = some (v.extractLsb' (8 * k) 8) := by
  simp [leBytes, h]

/-- The number of the first `n` little-endian bytes is the value below 2^(8n). -/
theorem leValue_leBytes {m : Nat} (n : Nat) (v : BitVec m) : leValue (leBytes n v) = v.toNat % 2 ^ (8 * n) := by
  have key : ∀ n j, leValue ((List.range n).map (fun k => v.extractLsb' (8 * (j + k)) 8)) =
      v.toNat / 2 ^ (8 * j) % 2 ^ (8 * n) := by
    intro n
    induction n with
    | zero => intro j; simp [leValue, Nat.mod_one]
    | succ n ih =>
      intro j
      have hstep : (List.range n).map (fun k => v.extractLsb' (8 * (j + (k + 1))) 8) =
          (List.range n).map (fun k => v.extractLsb' (8 * (j + 1 + k)) 8) := by
        congr 1; funext k; congr 2; omega
      rw [List.range_succ_eq_map]
      simp only [List.map_cons, List.map_map, Function.comp_def, leValue, Nat.succ_eq_add_one, hstep, ih (j + 1)]
      simp only [Nat.add_zero, BitVec.extractLsb'_toNat, Nat.shiftRight_eq_div_pow]
      have e1 : v.toNat / 2 ^ (8 * (j + 1)) = v.toNat / 2 ^ (8 * j) / 256 := by
        rw [Nat.div_div_eq_div_mul, show 8 * (j + 1) = 8 * j + 8 by ring, Nat.pow_add]
      have e2 : (2 : Nat) ^ (8 * (n + 1)) = 256 * 2 ^ (8 * n) := by
        rw [show 8 * (n + 1) = 8 + 8 * n by ring, Nat.pow_add]
      rw [e1, e2, Nat.mod_mul]
  simpa [leBytes] using key n 0

theorem leBytes_leValue_word (w : CommandWord) : BitVec.ofNat 128 (leValue (leBytes 16 w)) = w := by
  rw [leValue_leBytes]
  exact BitVec.eq_of_toNat_eq (by simp; exact w.isLt)

/-- A bit of a placed field. -/
theorem getLsbD_place {n : Nat} (lo : Nat) (v : BitVec n) (i : Nat) :
    (place lo v).getLsbD i = (decide (i < 128) && decide (lo ≤ i) && v.getLsbD (i - lo)) := by
  simp only [place, BitVec.getLsbD_shiftLeft, BitVec.getLsbD_setWidth]
  by_cases h1 : i < 128
  · by_cases h2 : lo ≤ i
    · simp [h1, h2, show i - lo < 128 by omega]
    · simp [h1, h2, show i < lo by omega]
  · simp [h1]

/-- A field read where it was placed. -/
theorem field_place_same {n : Nat} (lo : Nat) (v : BitVec n) (h : lo + n ≤ 128) : field lo n (place lo v) = v := by
  refine BitVec.eq_of_getLsbD_eq fun i hi => ?_
  simp only [field, BitVec.getLsbD_extractLsb', getLsbD_place, Nat.add_sub_cancel_left]
  simp [hi, show lo + i < 128 by omega]

/-- A field read clear of where another was placed. -/
theorem field_place_apart {n k : Nat} (lo lo' : Nat) (v : BitVec k) (h : lo + n ≤ lo' ∨ lo' + k ≤ lo) :
    field lo n (place lo' v) = 0#n := by
  refine BitVec.eq_of_getLsbD_eq fun i hi => ?_
  simp only [field, BitVec.getLsbD_extractLsb', getLsbD_place, BitVec.getLsbD_zero]
  rcases h with h | h
  · simp [show ¬lo' ≤ lo + i by omega]
  · rw [BitVec.getLsbD_of_ge v (lo + i - lo') (by omega)]; simp

theorem field_or (lo n : Nat) (a b : CommandWord) : field lo n (a ||| b) = field lo n a ||| field lo n b := by
  refine BitVec.eq_of_getLsbD_eq fun i hi => ?_
  simp [field, hi]

theorem field_zero (lo n : Nat) : field lo n 0#128 = 0#n := by
  refine BitVec.eq_of_getLsbD_eq fun i hi => ?_
  simp [field]

/-- A placed field has no bit in a reserved run apart from it. -/
theorem place_and_ones {k : Nat} (lo lo' n : Nat) (v : BitVec k) (h : lo + k ≤ lo' ∨ lo' + n ≤ lo) :
    place lo v &&& ones lo' n = 0#128 := by
  refine BitVec.eq_of_getLsbD_eq fun i hi => ?_
  simp only [ones, BitVec.getLsbD_and, getLsbD_place, BitVec.getLsbD_zero, BitVec.getLsbD_allOnes]
  rcases h with h | h
  · by_cases h2 : lo' ≤ i
    · rw [BitVec.getLsbD_of_ge v (i - lo) (by omega)]; simp
    · simp [h2]
  · by_cases h2 : lo ≤ i
    · simp [show ¬i - lo' < n by omega]
    · simp [h2]

/-- A bit of a field read. -/
theorem getLsbD_field (lo n : Nat) (w : CommandWord) (i : Nat) :
    (field lo n w).getLsbD i = (decide (i < n) && w.getLsbD (lo + i)) := by
  simp [field]

end Sys2Proof

namespace Sys2Proof.Machine

/-- The table is 48 bytes (R6, R51). -/
theorem tableBytes_length (g : GdtInit) : (tableBytes g).length = tableLength := by
  simp [tableBytes, gdtEntries, leBytes_length, tableLength]

/-- Byte j of entry k (R51). -/
theorem tableBytes_getElem? (g : GdtInit) (k j : Nat) (e : EntryFields) (he : (gdtEntries g)[k]? = some e) (hj : j < 8) :
    (tableBytes g)[8 * k + j]? = some ((entryWord e).extractLsb' (8 * j) 8) := by
  have key : ∀ (l : List EntryFields) k, l[k]? = some e →
      (l.flatMap (fun e => leBytes 8 (entryWord e)))[8 * k + j]? = some ((entryWord e).extractLsb' (8 * j) 8) := by
    intro l
    induction l with
    | nil => simp
    | cons x l ih =>
      intro k hk
      match k with
      | 0 =>
        simp at hk
        subst hk
        rw [List.flatMap_cons, List.getElem?_append_left (by simp [leBytes_length]; omega), Nat.mul_zero, Nat.zero_add,
          leBytes_getElem? 8 j _ hj]
      | k + 1 =>
        simp at hk
        rw [List.flatMap_cons, List.getElem?_append_right (by simp [leBytes_length]; omega), leBytes_length,
          show 8 * (k + 1) + j - 8 = 8 * k + j by omega]
        exact ih k hk
  exact key _ k he

/-- TP.base is where the Table Pointer puts it (R109). -/
theorem tpBase_tablePointer (size : Half) (base : Word) : tpBase (tablePointer size base) = base := by
  unfold tpBase tablePointer
  refine BitVec.eq_of_getLsbD_eq fun i hi => ?_
  have := BitVec.getLsbD_append (x := base) (y := size) (i := 16 + i)
  rw [BitVec.getLsbD_extractLsb', this]
  simp [hi]

/-- TP.size is where the Table Pointer puts it (R109). -/
theorem tpSize_tablePointer (size : Half) (base : Word) : tpSize (tablePointer size base) = size := by
  unfold tpSize tablePointer
  refine BitVec.eq_of_getLsbD_eq fun i hi => ?_
  have := BitVec.getLsbD_append (x := base) (y := size) (i := 0 + i)
  rw [BitVec.getLsbD_extractLsb', this]
  simp [hi]

end Sys2Proof.Machine
end

