-- ==== Sys2Proof/Laws/Memory.lean ====
section
/-! SUPPORT. The laws of the memory operations: what a read gives after a store or a copy, and that both keep the
canonical form and the bounds. The read laws hold of every list, canonical or not. -/

namespace Sys2Proof.Machine

/-! ## Reading -/

theorem Memory.mem_under {m : Memory} {e : Nat} {c : Host.Cell} : c ∈ m.under e ↔ c ∈ m ∧ c.1 < e := by
  simp [Memory.under]

theorem Memory.mem_from {m : Memory} {e : Nat} {c : Host.Cell} : c ∈ m.from e ↔ c ∈ m ∧ e ≤ c.1 := by
  simp [Memory.from]

theorem Memory.load_append (m n : Memory) (a : Nat) :
    Memory.load (m ++ n) a = (Memory.load m a).or (Memory.load n a) := by
  induction m with
  | nil => simp [Memory.load]
  | cons c m ih =>
    obtain ⟨b, v⟩ := c
    by_cases h : b = a <;> simp [Memory.load, h, ih]

theorem Memory.load_filter (p : Nat → Bool) (m : Memory) (a : Nat) :
    Memory.load (m.filter (fun c => p c.1)) a = if p a then Memory.load m a else none := by
  induction m with
  | nil => simp [Memory.load]
  | cons c m ih =>
    obtain ⟨b, v⟩ := c
    by_cases h : b = a
    · subst h
      by_cases hp : p b <;> simp [Memory.load, hp, ih]
    · by_cases hp : p b <;> simp [Memory.load, hp, ih, h]

theorem Memory.load_under (m : Memory) (e a : Nat) :
    Memory.load (m.under e) a = if a < e then Memory.load m a else none := by
  simpa [Memory.under] using Memory.load_filter (fun b => decide (b < e)) m a

theorem Memory.load_from (m : Memory) (e a : Nat) :
    Memory.load (m.from e) a = if e ≤ a then Memory.load m a else none := by
  simpa [Memory.from] using Memory.load_filter (fun b => decide (e ≤ b)) m a

theorem load_cellsFrom (bs : List Byte) (e a : Nat) :
    Memory.load (cellsFrom e bs) a = if e ≤ a then bs[a - e]? else none := by
  induction bs generalizing e with
  | nil => simp [cellsFrom, Memory.load]
  | cons b bs ih =>
    by_cases h : e = a
    · subst h; simp [cellsFrom, Memory.load]
    · by_cases h2 : e ≤ a
      · obtain ⟨k, rfl⟩ : ∃ k, a = e + 1 + k := ⟨a - e - 1, by omega⟩
        simp [cellsFrom, Memory.load, ih, show e + 1 + k - e = k + 1 by omega, show e ≠ e + 1 + k by omega,
          show e ≤ e + 1 + k by omega]
      · simp [cellsFrom, Memory.load, ih, h, h2, show ¬e + 1 ≤ a by omega]

theorem Memory.load_shift (m : Memory) (src dst a : Nat) (h : ∀ c ∈ m, src ≤ c.1) :
    Memory.load (m.map (fun c => (c.1 - src + dst, c.2))) a =
      if dst ≤ a then Memory.load m (a - dst + src) else none := by
  induction m with
  | nil => simp [Memory.load]
  | cons c m ih =>
    obtain ⟨b, v⟩ := c
    have hb : src ≤ b := h (b, v) (by simp)
    have ih := ih (fun c hc => h c (by simp [hc]))
    by_cases hd : dst ≤ a
    · by_cases hba : b = a - dst + src
      · simp [Memory.load, hd, hba]
      · simp [Memory.load, hd, hba, ih]; omega
    · simp only [List.map_cons, Memory.load, ih, hd, if_false]
      rw [if_neg (by omega)]

/-- What a read gives after a store: the stored byte inside, what stood there outside. -/
theorem Memory.load_store (m : Memory) (a x : Nat) (bs : List Byte) :
    (m.store a bs).load x = if a ≤ x ∧ x < a + bs.length then bs[x - a]? else m.load x := by
  simp only [Memory.store, Memory.load_append, Memory.load_under, Memory.load_from, load_cellsFrom]
  by_cases h1 : x < a
  · simp [h1, show ¬a ≤ x by omega, show ¬a + bs.length ≤ x by omega]
  · by_cases h2 : x < a + bs.length
    · simp [h1, h2, show a ≤ x by omega, show ¬a + bs.length ≤ x by omega]
    · simp [h1, h2, show a ≤ x by omega, show a + bs.length ≤ x by omega, show bs.length ≤ x - a by omega]

/-- What a read gives after a copy: inside, what stood at the source; outside, what stood there. -/
theorem Memory.load_copy (m : Memory) (dst src n x : Nat) :
    (m.copy dst src n).load x = if dst ≤ x ∧ x < dst + n then m.load (x - dst + src) else m.load x := by
  have hsrc : ∀ c ∈ (m.from src).under (src + n), src ≤ c.1 := by
    exact fun c hc => (Memory.mem_from.1 (Memory.mem_under.1 hc).1).2
  simp only [Memory.copy, Memory.load_append, Memory.load_under, Memory.load_from, Memory.load_shift _ _ _ _ hsrc]
  by_cases h1 : x < dst
  · simp [h1, show ¬dst ≤ x by omega, show ¬dst + n ≤ x by omega]
  · by_cases h2 : x < dst + n
    · simp [h1, h2, show dst ≤ x by omega, show ¬dst + n ≤ x by omega, show x - dst + src < src + n by omega]
    · simp [h1, h2, show dst ≤ x by omega, show dst + n ≤ x by omega, show ¬x - dst + src < src + n by omega]

/-! ## The canonical form -/

theorem mem_cellsFrom_bounds {bs : List Byte} {e : Nat} {c : Host.Cell} (h : c ∈ cellsFrom e bs) :
    e ≤ c.1 ∧ c.1 < e + bs.length := by
  induction bs generalizing e with
  | nil => simp [cellsFrom] at h
  | cons b bs ih =>
    simp only [cellsFrom, List.mem_cons] at h
    rcases h with rfl | h
    · simp
    · have := ih h; simp; omega

theorem cellsFrom_wf (bs : List Byte) (e : Nat) : Memory.wf (cellsFrom e bs) := by
  induction bs generalizing e with
  | nil => simp [cellsFrom]
  | cons b bs ih =>
    refine List.pairwise_cons.2 ⟨fun c hc => ?_, ih _⟩
    have := mem_cellsFrom_bounds hc
    show e < c.1
    omega

theorem Memory.wf_under {m : Memory} (e : Nat) (h : m.wf) : (m.under e).wf := List.Pairwise.filter _ h
theorem Memory.wf_from {m : Memory} (e : Nat) (h : m.wf) : (m.from e).wf := List.Pairwise.filter _ h

/-- Three canonical pieces in separate ranges make a canonical memory. -/
theorem Memory.wf_splice {l mid u : Memory} {a e : Nat} (hl : l.wf) (hm : mid.wf) (hu : u.wf)
    (bl : ∀ c ∈ l, c.1 < a) (bm : ∀ c ∈ mid, a ≤ c.1 ∧ c.1 < e) (bu : ∀ c ∈ u, e ≤ c.1) (hae : a ≤ e) :
    Memory.wf (l ++ mid ++ u) := by
  simp only [Memory.wf, List.pairwise_append, List.mem_append]
  refine ⟨⟨hl, hm, fun x hx y hy => ?_⟩, hu, fun x hx y hy => ?_⟩
  · have := bl x hx; have := bm y hy; omega
  · have hy := bu y hy
    rcases hx with hx | hx
    · have := bl x hx; omega
    · have := bm x hx; omega

/-- A store keeps the canonical form. -/
theorem Memory.wf_store {m : Memory} (a : Nat) (bs : List Byte) (h : m.wf) : (m.store a bs).wf :=
  Memory.wf_splice (Memory.wf_under _ h) (cellsFrom_wf _ _) (Memory.wf_from _ h)
    (fun _ hc => (Memory.mem_under.1 hc).2) (fun _ hc => mem_cellsFrom_bounds hc)
    (fun _ hc => (Memory.mem_from.1 hc).2) (Nat.le_add_right _ _)

/-- A copy keeps the canonical form. -/
theorem Memory.wf_copy {m : Memory} (dst src n : Nat) (h : m.wf) : (m.copy dst src n).wf := by
  have hb : ∀ c ∈ (m.from src).under (src + n), src ≤ c.1 ∧ c.1 < src + n := fun c hc =>
    ⟨(Memory.mem_from.1 (Memory.mem_under.1 hc).1).2, (Memory.mem_under.1 hc).2⟩
  refine Memory.wf_splice (e := dst + n) (Memory.wf_under _ h) ?_ (Memory.wf_from _ h)
    (fun _ hc => (Memory.mem_under.1 hc).2) ?_ (fun _ hc => (Memory.mem_from.1 hc).2) (Nat.le_add_right _ _)
  · refine List.pairwise_map.2 ((Memory.wf_under _ (Memory.wf_from _ h)).imp_of_mem ?_)
    intro x y hx hy hxy
    have := hb x hx; have := hb y hy
    show x.1 - src + dst < y.1 - src + dst
    omega
  · intro c hc
    obtain ⟨c', hc', rfl⟩ := List.mem_map.1 hc
    have := hb c' hc'
    show dst ≤ c'.1 - src + dst ∧ c'.1 - src + dst < dst + n
    omega

/-- Below its first address a canonical memory holds nothing. -/
theorem Memory.load_eq_none {m : Memory} {a : Nat} (h : ∀ c ∈ m, a < c.1) : m.load a = none := by
  induction m with
  | nil => rfl
  | cons c m ih =>
    obtain ⟨b, v⟩ := c
    have hb : a < b := h (b, v) (by simp)
    rw [Memory.load, if_neg (by omega)]
    exact ih fun c hc => h c (by simp [hc])

/-- Canonical memories that read the same at every address are the same list. -/
theorem Memory.ext_of_wf {m n : Memory} (hm : m.wf) (hn : n.wf) (h : ∀ a, m.load a = n.load a) : m = n := by
  induction m generalizing n with
  | nil =>
    match n with
    | [] => rfl
    | (b, v) :: n => have := h b; simp [Memory.load] at this
  | cons c m ih =>
    obtain ⟨b, v⟩ := c
    obtain ⟨hb, hm⟩ := List.pairwise_cons.1 hm
    match n with
    | [] => have := h b; simp [Memory.load] at this
    | (b', v') :: n' =>
      obtain ⟨hb', hn'⟩ := List.pairwise_cons.1 hn
      have e : b = b' := by
        rcases Nat.lt_trichotomy b b' with hlt | he | hlt
        · have := h b
          rw [Memory.load, if_pos rfl, Memory.load, if_neg (by omega),
            Memory.load_eq_none fun c hc => Nat.lt_trans hlt (hb' c hc)] at this
          cases this
        · exact he
        · have := h b'
          rw [Memory.load, if_neg (by omega), Memory.load, if_pos rfl,
            Memory.load_eq_none fun c hc => Nat.lt_trans hlt (hb c hc)] at this
          cases this
      subst e
      have e : v = v' := by have := h b; simpa [Memory.load] using this
      subst e
      congr 1
      refine ih hm hn' fun a => ?_
      by_cases ha : b = a
      · subst ha; rw [Memory.load_eq_none hb, Memory.load_eq_none hb']
      · have := h a; rwa [Memory.load, if_neg ha, Memory.load, if_neg ha] at this

/-! ## Bounds -/

theorem Memory.below_store {m : Memory} {N a : Nat} {bs : List Byte} (h : m.below N) (he : a + bs.length ≤ N) :
    (m.store a bs).below N := by
  intro c hc
  simp only [Memory.store, List.mem_append] at hc
  rcases hc with (hc | hc) | hc
  · exact h c (Memory.mem_under.1 hc).1
  · have := mem_cellsFrom_bounds hc; omega
  · exact h c (Memory.mem_from.1 hc).1

theorem Memory.below_copy {m : Memory} {N dst src n : Nat} (h : m.below N) (he : dst + n ≤ N) :
    (m.copy dst src n).below N := by
  intro c hc
  simp only [Memory.copy, List.mem_append, List.mem_map] at hc
  rcases hc with (hc | ⟨c', hc', rfl⟩) | hc
  · exact h c (Memory.mem_under.1 hc).1
  · have h1 := (Memory.mem_under.1 hc').2
    show c'.1 - src + dst < N
    have := (Memory.mem_from.1 (Memory.mem_under.1 hc').1).2
    omega
  · exact h c (Memory.mem_from.1 hc).1

/-! ## Storing over a store -/

theorem Memory.under_store (m : Memory) (a : Nat) (bs : List Byte) : (m.store a bs).under a = m.under a := by
  have h2 : (cellsFrom a bs).filter (fun c => decide (c.1 < a)) = [] := by
    rw [List.filter_eq_nil_iff]; intro c hc; have := mem_cellsFrom_bounds hc; simp; omega
  have h3 : (m.filter (fun c => decide (a + bs.length ≤ c.1))).filter (fun c => decide (c.1 < a)) = [] := by
    rw [List.filter_eq_nil_iff]; intro c hc; simp at hc ⊢; omega
  simp only [Memory.store, Memory.under, Memory.from, List.filter_append, h2, h3, List.append_nil]
  rw [List.filter_filter]; simp

theorem Memory.from_store (m : Memory) (a : Nat) (bs : List Byte) :
    (m.store a bs).from (a + bs.length) = m.from (a + bs.length) := by
  have h1 : (m.filter (fun c => decide (c.1 < a))).filter (fun c => decide (a + bs.length ≤ c.1)) = [] := by
    rw [List.filter_eq_nil_iff]; intro c hc; simp at hc ⊢; omega
  have h2 : (cellsFrom a bs).filter (fun c => decide (a + bs.length ≤ c.1)) = [] := by
    rw [List.filter_eq_nil_iff]; intro c hc; have := mem_cellsFrom_bounds hc; simp; omega
  simp only [Memory.store, Memory.under, Memory.from, List.filter_append, h1, h2, List.nil_append]
  rw [List.filter_filter]; simp

/-- Storing as many bytes again at the same place leaves what the second store leaves. -/
theorem Memory.store_store (m : Memory) (a : Nat) (bs cs : List Byte) (h : bs.length = cs.length) :
    (m.store a bs).store a cs = m.store a cs := by
  rw [Memory.store, Memory.under_store, ← h, Memory.from_store, Memory.store, h]

end Sys2Proof.Machine
end

