-- ==== Sys2Proof/Laws/State.lean ====
section
/-! SUPPORT. What each named update of State does to each field, by rfl: no later proof unfolds a record update. -/

namespace Sys2Proof.Machine

variable (s : State)

@[simp] theorem State.withOk_status : s.withOk.status = statusOk := rfl
@[simp] theorem State.withOk_res : s.withOk.res = s.res := rfl
@[simp] theorem State.withOk_refusedMark : s.withOk.refusedMark = s.refusedMark := rfl
@[simp] theorem State.withOk_built : s.withOk.built = s.built := rfl
@[simp] theorem State.withOk_installed : s.withOk.installed = s.installed := rfl
@[simp] theorem State.withOk_tp : s.withOk.tp = s.tp := rfl
@[simp] theorem State.withOk_tbl : s.withOk.tbl = s.tbl := rfl
@[simp] theorem State.withOk_cpuEvents : s.withOk.cpuEvents = s.cpuEvents := rfl
@[simp] theorem State.withOk_row : s.withOk.row = s.row := rfl
@[simp] theorem State.withOk_col : s.withOk.col = s.col := rfl
@[simp] theorem State.withOk_color : s.withOk.color = s.color := rfl
@[simp] theorem State.withOk_hwcur : s.withOk.hwcur = s.hwcur := rfl
@[simp] theorem State.withOk_fb : s.withOk.fb = s.fb := rfl
@[simp] theorem State.withOk_hbuf : s.withOk.hbuf = s.hbuf := rfl
@[simp] theorem State.withOk_cpuIf : s.withOk.cpuIf = s.cpuIf := rfl
@[simp] theorem State.withOk_pending : s.withOk.pending = s.pending := rfl
@[simp] theorem State.withOk_params : s.withOk.params = s.params := rfl

@[simp] theorem State.withRefused_status (c : Cause) : (s.withRefused c).status = causeCode c := rfl
@[simp] theorem State.withRefused_res (c : Cause) : (s.withRefused c).res = s.res := rfl
@[simp] theorem State.withRefused_refusedMark (c : Cause) : (s.withRefused c).refusedMark = true := rfl
@[simp] theorem State.withRefused_built (c : Cause) : (s.withRefused c).built = s.built := rfl
@[simp] theorem State.withRefused_installed (c : Cause) : (s.withRefused c).installed = s.installed := rfl
@[simp] theorem State.withRefused_tp (c : Cause) : (s.withRefused c).tp = s.tp := rfl
@[simp] theorem State.withRefused_tbl (c : Cause) : (s.withRefused c).tbl = s.tbl := rfl
@[simp] theorem State.withRefused_cpuEvents (c : Cause) : (s.withRefused c).cpuEvents = s.cpuEvents := rfl
@[simp] theorem State.withRefused_row (c : Cause) : (s.withRefused c).row = s.row := rfl
@[simp] theorem State.withRefused_col (c : Cause) : (s.withRefused c).col = s.col := rfl
@[simp] theorem State.withRefused_color (c : Cause) : (s.withRefused c).color = s.color := rfl
@[simp] theorem State.withRefused_hwcur (c : Cause) : (s.withRefused c).hwcur = s.hwcur := rfl
@[simp] theorem State.withRefused_fb (c : Cause) : (s.withRefused c).fb = s.fb := rfl
@[simp] theorem State.withRefused_hbuf (c : Cause) : (s.withRefused c).hbuf = s.hbuf := rfl
@[simp] theorem State.withRefused_cpuIf (c : Cause) : (s.withRefused c).cpuIf = s.cpuIf := rfl
@[simp] theorem State.withRefused_pending (c : Cause) : (s.withRefused c).pending = s.pending := rfl
@[simp] theorem State.withRefused_params (c : Cause) : (s.withRefused c).params = s.params := rfl

@[simp] theorem State.withRes_status (v : Quad) : (s.withRes v).status = s.status := rfl
@[simp] theorem State.withRes_res (v : Quad) : (s.withRes v).res = some v := rfl
@[simp] theorem State.withRes_refusedMark (v : Quad) : (s.withRes v).refusedMark = s.refusedMark := rfl
@[simp] theorem State.withRes_built (v : Quad) : (s.withRes v).built = s.built := rfl
@[simp] theorem State.withRes_installed (v : Quad) : (s.withRes v).installed = s.installed := rfl
@[simp] theorem State.withRes_tp (v : Quad) : (s.withRes v).tp = s.tp := rfl
@[simp] theorem State.withRes_tbl (v : Quad) : (s.withRes v).tbl = s.tbl := rfl
@[simp] theorem State.withRes_cpuEvents (v : Quad) : (s.withRes v).cpuEvents = s.cpuEvents := rfl
@[simp] theorem State.withRes_row (v : Quad) : (s.withRes v).row = s.row := rfl
@[simp] theorem State.withRes_col (v : Quad) : (s.withRes v).col = s.col := rfl
@[simp] theorem State.withRes_color (v : Quad) : (s.withRes v).color = s.color := rfl
@[simp] theorem State.withRes_hwcur (v : Quad) : (s.withRes v).hwcur = s.hwcur := rfl
@[simp] theorem State.withRes_fb (v : Quad) : (s.withRes v).fb = s.fb := rfl
@[simp] theorem State.withRes_hbuf (v : Quad) : (s.withRes v).hbuf = s.hbuf := rfl
@[simp] theorem State.withRes_cpuIf (v : Quad) : (s.withRes v).cpuIf = s.cpuIf := rfl
@[simp] theorem State.withRes_pending (v : Quad) : (s.withRes v).pending = s.pending := rfl
@[simp] theorem State.withRes_params (v : Quad) : (s.withRes v).params = s.params := rfl

@[simp] theorem State.withCursor_status (r : BitVec 5) (c : BitVec 7) : (s.withCursor r c).status = s.status := rfl
@[simp] theorem State.withCursor_res (r : BitVec 5) (c : BitVec 7) : (s.withCursor r c).res = s.res := rfl
@[simp] theorem State.withCursor_refusedMark (r : BitVec 5) (c : BitVec 7) : (s.withCursor r c).refusedMark = s.refusedMark := rfl
@[simp] theorem State.withCursor_built (r : BitVec 5) (c : BitVec 7) : (s.withCursor r c).built = s.built := rfl
@[simp] theorem State.withCursor_installed (r : BitVec 5) (c : BitVec 7) : (s.withCursor r c).installed = s.installed := rfl
@[simp] theorem State.withCursor_tp (r : BitVec 5) (c : BitVec 7) : (s.withCursor r c).tp = s.tp := rfl
@[simp] theorem State.withCursor_tbl (r : BitVec 5) (c : BitVec 7) : (s.withCursor r c).tbl = s.tbl := rfl
@[simp] theorem State.withCursor_cpuEvents (r : BitVec 5) (c : BitVec 7) : (s.withCursor r c).cpuEvents = s.cpuEvents := rfl
@[simp] theorem State.withCursor_row (r : BitVec 5) (c : BitVec 7) : (s.withCursor r c).row = r := rfl
@[simp] theorem State.withCursor_col (r : BitVec 5) (c : BitVec 7) : (s.withCursor r c).col = c := rfl
@[simp] theorem State.withCursor_color (r : BitVec 5) (c : BitVec 7) : (s.withCursor r c).color = s.color := rfl
@[simp] theorem State.withCursor_hwcur (r : BitVec 5) (c : BitVec 7) : (s.withCursor r c).hwcur = s.hwcur := rfl
@[simp] theorem State.withCursor_fb (r : BitVec 5) (c : BitVec 7) : (s.withCursor r c).fb = s.fb := rfl
@[simp] theorem State.withCursor_hbuf (r : BitVec 5) (c : BitVec 7) : (s.withCursor r c).hbuf = s.hbuf := rfl
@[simp] theorem State.withCursor_cpuIf (r : BitVec 5) (c : BitVec 7) : (s.withCursor r c).cpuIf = s.cpuIf := rfl
@[simp] theorem State.withCursor_pending (r : BitVec 5) (c : BitVec 7) : (s.withCursor r c).pending = s.pending := rfl
@[simp] theorem State.withCursor_params (r : BitVec 5) (c : BitVec 7) : (s.withCursor r c).params = s.params := rfl

@[simp] theorem State.withColor_status (v : Byte) : (s.withColor v).status = s.status := rfl
@[simp] theorem State.withColor_res (v : Byte) : (s.withColor v).res = s.res := rfl
@[simp] theorem State.withColor_refusedMark (v : Byte) : (s.withColor v).refusedMark = s.refusedMark := rfl
@[simp] theorem State.withColor_built (v : Byte) : (s.withColor v).built = s.built := rfl
@[simp] theorem State.withColor_installed (v : Byte) : (s.withColor v).installed = s.installed := rfl
@[simp] theorem State.withColor_tp (v : Byte) : (s.withColor v).tp = s.tp := rfl
@[simp] theorem State.withColor_tbl (v : Byte) : (s.withColor v).tbl = s.tbl := rfl
@[simp] theorem State.withColor_cpuEvents (v : Byte) : (s.withColor v).cpuEvents = s.cpuEvents := rfl
@[simp] theorem State.withColor_row (v : Byte) : (s.withColor v).row = s.row := rfl
@[simp] theorem State.withColor_col (v : Byte) : (s.withColor v).col = s.col := rfl
@[simp] theorem State.withColor_color (v : Byte) : (s.withColor v).color = v := rfl
@[simp] theorem State.withColor_hwcur (v : Byte) : (s.withColor v).hwcur = s.hwcur := rfl
@[simp] theorem State.withColor_fb (v : Byte) : (s.withColor v).fb = s.fb := rfl
@[simp] theorem State.withColor_hbuf (v : Byte) : (s.withColor v).hbuf = s.hbuf := rfl
@[simp] theorem State.withColor_cpuIf (v : Byte) : (s.withColor v).cpuIf = s.cpuIf := rfl
@[simp] theorem State.withColor_pending (v : Byte) : (s.withColor v).pending = s.pending := rfl
@[simp] theorem State.withColor_params (v : Byte) : (s.withColor v).params = s.params := rfl

@[simp] theorem State.synced_status : s.synced.status = s.status := rfl
@[simp] theorem State.synced_res : s.synced.res = s.res := rfl
@[simp] theorem State.synced_refusedMark : s.synced.refusedMark = s.refusedMark := rfl
@[simp] theorem State.synced_built : s.synced.built = s.built := rfl
@[simp] theorem State.synced_installed : s.synced.installed = s.installed := rfl
@[simp] theorem State.synced_tp : s.synced.tp = s.tp := rfl
@[simp] theorem State.synced_tbl : s.synced.tbl = s.tbl := rfl
@[simp] theorem State.synced_cpuEvents : s.synced.cpuEvents = s.cpuEvents := rfl
@[simp] theorem State.synced_row : s.synced.row = s.row := rfl
@[simp] theorem State.synced_col : s.synced.col = s.col := rfl
@[simp] theorem State.synced_color : s.synced.color = s.color := rfl
@[simp] theorem State.synced_hwcur : s.synced.hwcur = 80 * s.row.setWidth 16 + s.col.setWidth 16 := rfl
@[simp] theorem State.synced_fb : s.synced.fb = s.fb := rfl
@[simp] theorem State.synced_hbuf : s.synced.hbuf = s.hbuf := rfl
@[simp] theorem State.synced_cpuIf : s.synced.cpuIf = s.cpuIf := rfl
@[simp] theorem State.synced_pending : s.synced.pending = s.pending := rfl
@[simp] theorem State.synced_params : s.synced.params = s.params := rfl

@[simp] theorem State.withFb_status (m : Memory) : (s.withFb m).status = s.status := rfl
@[simp] theorem State.withFb_res (m : Memory) : (s.withFb m).res = s.res := rfl
@[simp] theorem State.withFb_refusedMark (m : Memory) : (s.withFb m).refusedMark = s.refusedMark := rfl
@[simp] theorem State.withFb_built (m : Memory) : (s.withFb m).built = s.built := rfl
@[simp] theorem State.withFb_installed (m : Memory) : (s.withFb m).installed = s.installed := rfl
@[simp] theorem State.withFb_tp (m : Memory) : (s.withFb m).tp = s.tp := rfl
@[simp] theorem State.withFb_tbl (m : Memory) : (s.withFb m).tbl = s.tbl := rfl
@[simp] theorem State.withFb_cpuEvents (m : Memory) : (s.withFb m).cpuEvents = s.cpuEvents := rfl
@[simp] theorem State.withFb_row (m : Memory) : (s.withFb m).row = s.row := rfl
@[simp] theorem State.withFb_col (m : Memory) : (s.withFb m).col = s.col := rfl
@[simp] theorem State.withFb_color (m : Memory) : (s.withFb m).color = s.color := rfl
@[simp] theorem State.withFb_hwcur (m : Memory) : (s.withFb m).hwcur = s.hwcur := rfl
@[simp] theorem State.withFb_fb (m : Memory) : (s.withFb m).fb = m := rfl
@[simp] theorem State.withFb_hbuf (m : Memory) : (s.withFb m).hbuf = s.hbuf := rfl
@[simp] theorem State.withFb_cpuIf (m : Memory) : (s.withFb m).cpuIf = s.cpuIf := rfl
@[simp] theorem State.withFb_pending (m : Memory) : (s.withFb m).pending = s.pending := rfl
@[simp] theorem State.withFb_params (m : Memory) : (s.withFb m).params = s.params := rfl

@[simp] theorem State.withHbuf_status (m : Memory) : (s.withHbuf m).status = s.status := rfl
@[simp] theorem State.withHbuf_res (m : Memory) : (s.withHbuf m).res = s.res := rfl
@[simp] theorem State.withHbuf_refusedMark (m : Memory) : (s.withHbuf m).refusedMark = s.refusedMark := rfl
@[simp] theorem State.withHbuf_built (m : Memory) : (s.withHbuf m).built = s.built := rfl
@[simp] theorem State.withHbuf_installed (m : Memory) : (s.withHbuf m).installed = s.installed := rfl
@[simp] theorem State.withHbuf_tp (m : Memory) : (s.withHbuf m).tp = s.tp := rfl
@[simp] theorem State.withHbuf_tbl (m : Memory) : (s.withHbuf m).tbl = s.tbl := rfl
@[simp] theorem State.withHbuf_cpuEvents (m : Memory) : (s.withHbuf m).cpuEvents = s.cpuEvents := rfl
@[simp] theorem State.withHbuf_row (m : Memory) : (s.withHbuf m).row = s.row := rfl
@[simp] theorem State.withHbuf_col (m : Memory) : (s.withHbuf m).col = s.col := rfl
@[simp] theorem State.withHbuf_color (m : Memory) : (s.withHbuf m).color = s.color := rfl
@[simp] theorem State.withHbuf_hwcur (m : Memory) : (s.withHbuf m).hwcur = s.hwcur := rfl
@[simp] theorem State.withHbuf_fb (m : Memory) : (s.withHbuf m).fb = s.fb := rfl
@[simp] theorem State.withHbuf_hbuf (m : Memory) : (s.withHbuf m).hbuf = m := rfl
@[simp] theorem State.withHbuf_cpuIf (m : Memory) : (s.withHbuf m).cpuIf = s.cpuIf := rfl
@[simp] theorem State.withHbuf_pending (m : Memory) : (s.withHbuf m).pending = s.pending := rfl
@[simp] theorem State.withHbuf_params (m : Memory) : (s.withHbuf m).params = s.params := rfl

@[simp] theorem State.withTable_status (m : Memory) (p : BitVec 48) : (s.withTable m p).status = s.status := rfl
@[simp] theorem State.withTable_res (m : Memory) (p : BitVec 48) : (s.withTable m p).res = s.res := rfl
@[simp] theorem State.withTable_refusedMark (m : Memory) (p : BitVec 48) : (s.withTable m p).refusedMark = s.refusedMark := rfl
@[simp] theorem State.withTable_built (m : Memory) (p : BitVec 48) : (s.withTable m p).built = true := rfl
@[simp] theorem State.withTable_installed (m : Memory) (p : BitVec 48) : (s.withTable m p).installed = s.installed := rfl
@[simp] theorem State.withTable_tp (m : Memory) (p : BitVec 48) : (s.withTable m p).tp = some p := rfl
@[simp] theorem State.withTable_tbl (m : Memory) (p : BitVec 48) : (s.withTable m p).tbl = m := rfl
@[simp] theorem State.withTable_cpuEvents (m : Memory) (p : BitVec 48) : (s.withTable m p).cpuEvents = s.cpuEvents := rfl
@[simp] theorem State.withTable_row (m : Memory) (p : BitVec 48) : (s.withTable m p).row = s.row := rfl
@[simp] theorem State.withTable_col (m : Memory) (p : BitVec 48) : (s.withTable m p).col = s.col := rfl
@[simp] theorem State.withTable_color (m : Memory) (p : BitVec 48) : (s.withTable m p).color = s.color := rfl
@[simp] theorem State.withTable_hwcur (m : Memory) (p : BitVec 48) : (s.withTable m p).hwcur = s.hwcur := rfl
@[simp] theorem State.withTable_fb (m : Memory) (p : BitVec 48) : (s.withTable m p).fb = s.fb := rfl
@[simp] theorem State.withTable_hbuf (m : Memory) (p : BitVec 48) : (s.withTable m p).hbuf = s.hbuf := rfl
@[simp] theorem State.withTable_cpuIf (m : Memory) (p : BitVec 48) : (s.withTable m p).cpuIf = s.cpuIf := rfl
@[simp] theorem State.withTable_pending (m : Memory) (p : BitVec 48) : (s.withTable m p).pending = s.pending := rfl
@[simp] theorem State.withTable_params (m : Memory) (p : BitVec 48) : (s.withTable m p).params = s.params := rfl

@[simp] theorem State.emit_status (e : CpuEvent) : (s.emit e).status = s.status := rfl
@[simp] theorem State.emit_res (e : CpuEvent) : (s.emit e).res = s.res := rfl
@[simp] theorem State.emit_refusedMark (e : CpuEvent) : (s.emit e).refusedMark = s.refusedMark := rfl
@[simp] theorem State.emit_built (e : CpuEvent) : (s.emit e).built = s.built := rfl
@[simp] theorem State.emit_installed (e : CpuEvent) : (s.emit e).installed = s.installed := rfl
@[simp] theorem State.emit_tp (e : CpuEvent) : (s.emit e).tp = s.tp := rfl
@[simp] theorem State.emit_tbl (e : CpuEvent) : (s.emit e).tbl = s.tbl := rfl
@[simp] theorem State.emit_cpuEvents (e : CpuEvent) : (s.emit e).cpuEvents = s.cpuEvents ++ [e] := rfl
@[simp] theorem State.emit_row (e : CpuEvent) : (s.emit e).row = s.row := rfl
@[simp] theorem State.emit_col (e : CpuEvent) : (s.emit e).col = s.col := rfl
@[simp] theorem State.emit_color (e : CpuEvent) : (s.emit e).color = s.color := rfl
@[simp] theorem State.emit_hwcur (e : CpuEvent) : (s.emit e).hwcur = s.hwcur := rfl
@[simp] theorem State.emit_fb (e : CpuEvent) : (s.emit e).fb = s.fb := rfl
@[simp] theorem State.emit_hbuf (e : CpuEvent) : (s.emit e).hbuf = s.hbuf := rfl
@[simp] theorem State.emit_cpuIf (e : CpuEvent) : (s.emit e).cpuIf = s.cpuIf := rfl
@[simp] theorem State.emit_pending (e : CpuEvent) : (s.emit e).pending = s.pending := rfl
@[simp] theorem State.emit_params (e : CpuEvent) : (s.emit e).params = s.params := rfl

@[simp] theorem State.withInstalled_status : s.withInstalled.status = s.status := rfl
@[simp] theorem State.withInstalled_res : s.withInstalled.res = s.res := rfl
@[simp] theorem State.withInstalled_refusedMark : s.withInstalled.refusedMark = s.refusedMark := rfl
@[simp] theorem State.withInstalled_built : s.withInstalled.built = s.built := rfl
@[simp] theorem State.withInstalled_installed : s.withInstalled.installed = true := rfl
@[simp] theorem State.withInstalled_tp : s.withInstalled.tp = s.tp := rfl
@[simp] theorem State.withInstalled_tbl : s.withInstalled.tbl = s.tbl := rfl
@[simp] theorem State.withInstalled_cpuEvents : s.withInstalled.cpuEvents = s.cpuEvents := rfl
@[simp] theorem State.withInstalled_row : s.withInstalled.row = s.row := rfl
@[simp] theorem State.withInstalled_col : s.withInstalled.col = s.col := rfl
@[simp] theorem State.withInstalled_color : s.withInstalled.color = s.color := rfl
@[simp] theorem State.withInstalled_hwcur : s.withInstalled.hwcur = s.hwcur := rfl
@[simp] theorem State.withInstalled_fb : s.withInstalled.fb = s.fb := rfl
@[simp] theorem State.withInstalled_hbuf : s.withInstalled.hbuf = s.hbuf := rfl
@[simp] theorem State.withInstalled_cpuIf : s.withInstalled.cpuIf = s.cpuIf := rfl
@[simp] theorem State.withInstalled_pending : s.withInstalled.pending = s.pending := rfl
@[simp] theorem State.withInstalled_params : s.withInstalled.params = s.params := rfl

@[simp] theorem State.accept_status (c : Command) (rest : List Command) : (s.accept c rest).status = s.status := rfl
@[simp] theorem State.accept_res (c : Command) (rest : List Command) : (s.accept c rest).res = s.res := rfl
@[simp] theorem State.accept_refusedMark (c : Command) (rest : List Command) : (s.accept c rest).refusedMark = s.refusedMark := rfl
@[simp] theorem State.accept_built (c : Command) (rest : List Command) : (s.accept c rest).built = s.built := rfl
@[simp] theorem State.accept_installed (c : Command) (rest : List Command) : (s.accept c rest).installed = s.installed := rfl
@[simp] theorem State.accept_tp (c : Command) (rest : List Command) : (s.accept c rest).tp = s.tp := rfl
@[simp] theorem State.accept_tbl (c : Command) (rest : List Command) : (s.accept c rest).tbl = s.tbl := rfl
@[simp] theorem State.accept_cpuEvents (c : Command) (rest : List Command) : (s.accept c rest).cpuEvents = s.cpuEvents := rfl
@[simp] theorem State.accept_row (c : Command) (rest : List Command) : (s.accept c rest).row = s.row := rfl
@[simp] theorem State.accept_col (c : Command) (rest : List Command) : (s.accept c rest).col = s.col := rfl
@[simp] theorem State.accept_color (c : Command) (rest : List Command) : (s.accept c rest).color = s.color := rfl
@[simp] theorem State.accept_hwcur (c : Command) (rest : List Command) : (s.accept c rest).hwcur = s.hwcur := rfl
@[simp] theorem State.accept_fb (c : Command) (rest : List Command) : (s.accept c rest).fb = s.fb := rfl
@[simp] theorem State.accept_hbuf (c : Command) (rest : List Command) : (s.accept c rest).hbuf = s.hbuf := rfl
@[simp] theorem State.accept_cpuIf (c : Command) (rest : List Command) : (s.accept c rest).cpuIf = c.cpuIf := rfl
@[simp] theorem State.accept_pending (c : Command) (rest : List Command) : (s.accept c rest).pending = rest := rfl
@[simp] theorem State.accept_params (c : Command) (rest : List Command) : (s.accept c rest).params = s.params := rfl

@[simp] theorem State.offer_status (w : CommandWord) : (s.offer w).status = s.status := rfl
@[simp] theorem State.offer_res (w : CommandWord) : (s.offer w).res = s.res := rfl
@[simp] theorem State.offer_refusedMark (w : CommandWord) : (s.offer w).refusedMark = s.refusedMark := rfl
@[simp] theorem State.offer_built (w : CommandWord) : (s.offer w).built = s.built := rfl
@[simp] theorem State.offer_installed (w : CommandWord) : (s.offer w).installed = s.installed := rfl
@[simp] theorem State.offer_tp (w : CommandWord) : (s.offer w).tp = s.tp := rfl
@[simp] theorem State.offer_tbl (w : CommandWord) : (s.offer w).tbl = s.tbl := rfl
@[simp] theorem State.offer_cpuEvents (w : CommandWord) : (s.offer w).cpuEvents = s.cpuEvents := rfl
@[simp] theorem State.offer_row (w : CommandWord) : (s.offer w).row = s.row := rfl
@[simp] theorem State.offer_col (w : CommandWord) : (s.offer w).col = s.col := rfl
@[simp] theorem State.offer_color (w : CommandWord) : (s.offer w).color = s.color := rfl
@[simp] theorem State.offer_hwcur (w : CommandWord) : (s.offer w).hwcur = s.hwcur := rfl
@[simp] theorem State.offer_fb (w : CommandWord) : (s.offer w).fb = s.fb := rfl
@[simp] theorem State.offer_hbuf (w : CommandWord) : (s.offer w).hbuf = s.hbuf := rfl
@[simp] theorem State.offer_cpuIf (w : CommandWord) : (s.offer w).cpuIf = s.cpuIf := rfl
@[simp] theorem State.offer_pending (w : CommandWord) : (s.offer w).pending = { word := w, cpuIf := s.cpuIf } :: s.pending := rfl
@[simp] theorem State.offer_params (w : CommandWord) : (s.offer w).params = s.params := rfl

@[simp] theorem State.scrolled_status : s.scrolled.status = s.status := rfl
@[simp] theorem State.scrolled_res : s.scrolled.res = s.res := rfl
@[simp] theorem State.scrolled_refusedMark : s.scrolled.refusedMark = s.refusedMark := rfl
@[simp] theorem State.scrolled_built : s.scrolled.built = s.built := rfl
@[simp] theorem State.scrolled_installed : s.scrolled.installed = s.installed := rfl
@[simp] theorem State.scrolled_tp : s.scrolled.tp = s.tp := rfl
@[simp] theorem State.scrolled_tbl : s.scrolled.tbl = s.tbl := rfl
@[simp] theorem State.scrolled_cpuEvents : s.scrolled.cpuEvents = s.cpuEvents := rfl
@[simp] theorem State.scrolled_row : s.scrolled.row = 24 := rfl
@[simp] theorem State.scrolled_col : s.scrolled.col = s.col := rfl
@[simp] theorem State.scrolled_color : s.scrolled.color = s.color := rfl
@[simp] theorem State.scrolled_hwcur : s.scrolled.hwcur = s.hwcur := rfl
@[simp] theorem State.scrolled_fb : s.scrolled.fb = scrollFb s.color s.fb := rfl
@[simp] theorem State.scrolled_hbuf : s.scrolled.hbuf = s.hbuf := rfl
@[simp] theorem State.scrolled_cpuIf : s.scrolled.cpuIf = s.cpuIf := rfl
@[simp] theorem State.scrolled_pending : s.scrolled.pending = s.pending := rfl
@[simp] theorem State.scrolled_params : s.scrolled.params = s.params := rfl

end Sys2Proof.Machine
end

