-- ==== Sys2Proof/Laws/Exec.lean ====
section
/-! SUPPORT. What each shared operation and each meaning can answer, said once: if it answers next t, then one of these. -/

namespace Sys2Proof.Machine

variable {s t : State}

/-! ## How a command ends -/

theorem complete_next : complete s = .next t ↔ t = s.withOk := by
  simp [complete, eq_comm]

theorem refuse_next {c : Cause} : refuse c s = .next t ↔ t = s.withRefused c := by
  simp [refuse, eq_comm]

theorem answer_next {v : Quad} : answer v s = .next t ↔ t = (s.withRes v).withOk := by
  simp [answer, complete_next]

theorem statusOk_eq : statusOk = 0#8 := rfl

theorem causeCode_ne_zero (c : Cause) : causeCode c ≠ 0#8 := by cases c <;> decide

theorem causeCode_le (c : Cause) : (causeCode c).toNat ≤ 11 := by cases c <;> decide

/-! ## DTE -/

theorem execDtBuild_cases (h : execDtBuild s = .next t) :
    (s.installed = true ∧ t = s.withRefused .installed) ∨
    (s.installed = false ∧
      t = (s.withTable (s.tbl.store 0 (tableBytes s.params.gdtInit)) (builtPointer s.params)).withOk) := by
  unfold execDtBuild at h
  split at h
  · exact .inl ⟨‹_›, refuse_next.1 h⟩
  · exact .inr ⟨by simpa using ‹¬s.installed = true›, complete_next.1 h⟩

theorem execDtInstall_cases (h : execDtInstall s = .next t) :
    (∃ c, t = s.withRefused c) ∨
    (∃ tp, s.built = true ∧ s.installed = false ∧ s.cpuIf = false ∧ s.tp = some tp ∧
      t = (((s.emit (.loadTable (tpSize tp) (tpBase tp))).emit
        (.reloadSelectors kernelCodeSelector kernelDataSelector)).withInstalled).withOk) := by
  unfold execDtInstall at h
  split at h
  · exact .inl ⟨_, refuse_next.1 h⟩
  · split at h
    · exact .inl ⟨_, refuse_next.1 h⟩
    · split at h
      · exact .inl ⟨_, refuse_next.1 h⟩
      · split at h
        · exact .inl ⟨_, refuse_next.1 h⟩
        · exact .inr ⟨_, by simp_all, by simp_all, by simp_all, ‹_›, complete_next.1 h⟩

theorem execDtRd8_cases {off : BitVec 6} (h : execDtRd8 off s = .next t) :
    (∃ c, t = s.withRefused c) ∨
    (∃ b, s.built = true ∧ s.tbl.load off.toNat = some b ∧ t = (s.withRes (zext64 b)).withOk) := by
  unfold execDtRd8 at h
  split at h
  · exact .inl ⟨_, refuse_next.1 h⟩
  · split at h
    · exact .inl ⟨_, refuse_next.1 h⟩
    · split at h
      · exact .inl ⟨_, refuse_next.1 h⟩
      · exact .inr ⟨_, by simp_all, ‹_›, answer_next.1 h⟩

theorem execDtRdtp_cases (h : execDtRdtp s = .next t) :
    (∃ c, t = s.withRefused c) ∨
    (∃ tp, s.built = true ∧ s.tp = some tp ∧ t = (s.withRes (zext64 tp)).withOk) := by
  unfold execDtRdtp at h
  split at h
  · exact .inl ⟨_, refuse_next.1 h⟩
  · split at h
    · exact .inl ⟨_, refuse_next.1 h⟩
    · exact .inr ⟨_, by simp_all, ‹_›, answer_next.1 h⟩

/-! ## TERM -/

theorem State.typed_cases {ch : Byte} (h : s.typed ch = some t) :
    (ch = 0x0A#8 ∧ t = s.withCursor (s.row + 1) 0) ∨
    (ch = 0x0D#8 ∧ t = s.withCursor s.row 0) ∨
    (ch ≠ 0x0A#8 ∧ ch ≠ 0x0D#8 ∧ s.CursorOk ∧
      t = (s.withFb (putCell s.row.toNat s.col.toNat ch s.color s.fb)).advanced) := by
  unfold State.typed at h
  split at h
  · exact .inl ⟨‹_›, by simpa using h.symm⟩
  · split at h
    · exact .inr (.inl ⟨‹_›, by simpa using h.symm⟩)
    · split at h
      · rename_i hg
        exact .inr (.inr ⟨‹_›, ‹_›, by simpa [State.onGrid] using hg, by simpa using h.symm⟩)
      · simp at h

theorem execTmPutc_cases {ch : Byte} (h : execTmPutc ch s = .next t) :
    ∃ u, s.typed ch = some u ∧ t = u.scrolledIfOff.synced.withOk := by
  unfold execTmPutc at h
  split at h
  · simp at h
  · exact ⟨_, ‹_›, complete_next.1 h⟩

/-! ## Frame buffer -/

theorem execFbRd8_cases {off : BitVec 12} (h : execFbRd8 off s = .next t) :
    (∃ c, t = s.withRefused c) ∨ (∃ b, s.fb.load off.toNat = some b ∧ t = (s.withRes (zext64 b)).withOk) := by
  unfold execFbRd8 at h
  split at h
  · exact .inl ⟨_, refuse_next.1 h⟩
  · split at h
    · exact .inl ⟨_, refuse_next.1 h⟩
    · exact .inr ⟨_, ‹_›, answer_next.1 h⟩

theorem execFbRd16_cases {off : BitVec 12} (h : execFbRd16 off s = .next t) :
    (∃ c, t = s.withRefused c) ∨
    (∃ lo hi, s.fb.load off.toNat = some lo ∧ s.fb.load (off.toNat + 1) = some hi ∧
      t = (s.withRes (zext64 (hi ++ lo))).withOk) := by
  unfold execFbRd16 at h
  split at h
  · exact .inl ⟨_, refuse_next.1 h⟩
  · split at h
    · exact .inl ⟨_, refuse_next.1 h⟩
    · split at h
      · exact .inr ⟨_, _, ‹_›, ‹_›, answer_next.1 h⟩
      · exact .inl ⟨_, refuse_next.1 h⟩

theorem execFbWr8_cases {off : BitVec 12} {data : Byte} (h : execFbWr8 off data s = .next t) :
    (∃ c, t = s.withRefused c) ∨
    (off.toNat < fbLength ∧ t = (s.withFb (s.fb.store off.toNat (leBytes 1 data))).withOk) := by
  unfold execFbWr8 at h
  split at h
  · exact .inl ⟨_, refuse_next.1 h⟩
  · exact .inr ⟨by simp_all [offPastFb], complete_next.1 h⟩

theorem execFbWr16_cases {off : BitVec 12} {data : Half} (h : execFbWr16 off data s = .next t) :
    (∃ c, t = s.withRefused c) ∨
    (off.toNat < fbLength ∧ offOdd off = false ∧
      t = (s.withFb (s.fb.store off.toNat (leBytes 2 data))).withOk) := by
  unfold execFbWr16 at h
  split at h
  · exact .inl ⟨_, refuse_next.1 h⟩
  · split at h
    · exact .inl ⟨_, refuse_next.1 h⟩
    · exact .inr ⟨by simp_all [offPastFb], by simp_all, complete_next.1 h⟩

/-! ## FMT -/

theorem putText_cases {text : List Byte} {buf cap : Word} (h : putText text buf cap s = .next t) :
    (∃ c, t = s.withRefused c) ∨
    (cap = 0#32 ∧ t = (s.withRes 0#64).withOk) ∨
    (0 < cap.toNat ∧ buf.toNat + cap.toNat ≤ 2 ^ 32 ∧
      t = ((s.withHbuf (s.hbuf.store buf.toNat (fitBytes text cap))).withRes
        (BitVec.ofNat 64 (fitLength text cap))).withOk) := by
  unfold putText at h
  split at h
  · exact .inl ⟨_, refuse_next.1 h⟩
  · split at h
    · exact .inr (.inl ⟨‹_›, answer_next.1 h⟩)
    · rename_i hw hc
      have : cap.toNat ≠ 0 := fun h0 => hc (BitVec.eq_of_toNat_eq (by simpa using h0))
      exact .inr (.inr ⟨by omega, by simpa [bufWraps] using hw, answer_next.1 h⟩)

theorem execFmtUtoa_cases {value buf cap : Word} {base : Byte} {upper : Bool}
    (h : execFmtUtoa value base upper buf cap s = .next t) :
    (∃ c, t = s.withRefused c) ∨
    ((base = 10#8 ∨ base = 16#8) ∧ putText (utoaText value.toNat base.toNat upper) buf cap s = .next t) := by
  unfold execFmtUtoa at h
  split at h
  · exact .inl ⟨_, refuse_next.1 h⟩
  · exact .inr ⟨by rename_i hb; by_cases h10 : base = 10#8 <;> simp_all, h⟩

/-- The bytes an FMT command writes for cap > 0 end before buf + cap (R208). -/
theorem fitBytes_length_le (text : List Byte) (cap : Word) (h : 0 < cap.toNat) :
    (fitBytes text cap).length ≤ cap.toNat := by
  simp [fitBytes, fitLength]; omega

end Sys2Proof.Machine
end

