-- ==== Sys2Proof/Laws/Terminal.lean ====
section
/-! SUPPORT. The laws of the TERM's primitives: the bytes of a blank run, of a drawn cell and of a scroll. -/

namespace Sys2Proof.Machine

theorem blankCells_length (n : Nat) (color : Byte) : (blankCells n color).length = 2 * n := by
  simp [blankCells]; omega

/-- Byte k of a run of blank cells: the space at an even k, the colour at an odd one (R141). -/
theorem blankCells_getElem? (n : Nat) (color : Byte) (k : Nat) (h : k < 2 * n) :
    (blankCells n color)[k]? = some (if k % 2 = 0 then 0x20#8 else color) := by
  induction n generalizing k with
  | zero => omega
  | succ n ih =>
    have hb : blankCells (n + 1) color = 0x20#8 :: color :: blankCells n color := by
      simp [blankCells, List.replicate_succ]
    match k with
    | 0 => simp [hb]
    | 1 => simp [hb]
    | k + 2 => simp [hb, ih k (by omega)]

/-- What a read of FB gives after a drawn cell (R140). -/
theorem load_putCell (r c : Nat) (ch attr : Byte) (m : Memory) (a : Nat) :
    (putCell r c ch attr m).load a =
      if a = cellOffset r c then some ch else if a = cellOffset r c + 1 then some attr else m.load a := by
  rw [putCell, Memory.load_store]
  by_cases h0 : a = cellOffset r c
  · simp [h0]
  · by_cases h1 : a = cellOffset r c + 1
    · simp [h1]
    · rw [if_neg (by simp; omega), if_neg h0, if_neg h1]

/-- What a read of FB gives after a scroll (R143). -/
theorem load_scrollFb (color : Byte) (m : Memory) (a : Nat) :
    (scrollFb color m).load a =
      if a < 3840 then m.load (a + 160)
      else if a < 4000 then some (if a % 2 = 0 then 0x20#8 else color) else m.load a := by
  have hlen := blankCells_length 80 color
  have hget := blankCells_getElem? 80 color (a - 3840)
  rw [scrollFb]
  generalize blankCells 80 color = bs at hlen hget
  rw [show cellOffset 1 0 = 160 from rfl, show cellOffset 24 0 = 3840 from rfl, Memory.load_store, Memory.load_copy, hlen]
  by_cases h1 : a < 3840
  · have c1 : ¬(3840 ≤ a ∧ a < 3840 + 2 * 80) := by omega
    have c2 : 0 ≤ a ∧ a < 0 + 3840 := by omega
    simp only [c1, c2, if_true, if_false, and_self, Nat.sub_zero]
  · by_cases h2 : a < 4000
    · have c1 : 3840 ≤ a ∧ a < 3840 + 2 * 80 := by omega
      have c2 : ((a - 3840) % 2 = 0) = (a % 2 = 0) := propext (by omega)
      simp only [c1, h1, if_true, if_false, and_self, hget (by omega), c2]
    · have c1 : ¬(3840 ≤ a ∧ a < 3840 + 2 * 80) := by omega
      have c2 : ¬(0 ≤ a ∧ a < 0 + 3840) := by omega
      rw [if_neg c1, if_neg c2, if_neg h1, if_neg h2]

/-- What a read of FB gives after a clear (R146). -/
theorem load_clear (color : Byte) (m : Memory) (a : Nat) :
    (m.store 0 (blankCells 2000 color)).load a =
      if a < 4000 then some (if a % 2 = 0 then 0x20#8 else color) else m.load a := by
  have hlen := blankCells_length 2000 color
  have hget := blankCells_getElem? 2000 color a
  generalize blankCells 2000 color = bs at hlen hget
  rw [Memory.load_store, hlen]
  by_cases h : a < 4000
  · rw [if_pos (by omega), if_pos h, Nat.sub_zero, hget (by omega)]
  · rw [if_neg (by omega), if_neg h]

theorem wf_putCell {m : Memory} (r c : Nat) (ch attr : Byte) (h : m.wf) : (putCell r c ch attr m).wf :=
  Memory.wf_store _ _ h

theorem below_putCell {m : Memory} {r c : Nat} (ch attr : Byte) (h : m.below fbLength) (hr : r < 25) (hc : c < 80) :
    (putCell r c ch attr m).below fbLength :=
  Memory.below_store h (by simp [cellOffset, fbLength]; omega)

theorem wf_scrollFb {m : Memory} (color : Byte) (h : m.wf) : (scrollFb color m).wf :=
  Memory.wf_store _ _ (Memory.wf_copy _ _ _ h)

theorem below_scrollFb {m : Memory} (color : Byte) (h : m.below fbLength) : (scrollFb color m).below fbLength :=
  Memory.below_store (Memory.below_copy h (by decide)) (by rw [blankCells_length]; decide)

/-! ## The cursor -/

theorem State.scrolledIfOff_of_eq {s : State} (h : s.row = 25) : s.scrolledIfOff = s.scrolled := if_pos h

theorem State.scrolledIfOff_of_ne {s : State} (h : s.row.toNat ≠ 25) : s.scrolledIfOff = s :=
  if_neg fun e => h (by rw [e]; rfl)

theorem State.advanced_of_last {s : State} (h : s.col.toNat = 79) : s.advanced = s.withCursor (s.row + 1) 0 :=
  if_pos (BitVec.eq_of_toNat_eq (by rw [BitVec.toNat_add, h]; rfl))

theorem State.advanced_of_lt {s : State} (h : s.col.toNat < 79) : s.advanced = s.withCursor s.row (s.col + 1) :=
  if_neg fun e => by
    have := congrArg BitVec.toNat e
    rw [BitVec.toNat_add] at this
    simp at this
    omega

/-- tm.putc of "\n" (R144). -/
theorem execTmPutc_newline (s : State) :
    execTmPutc 0x0A#8 s = complete (s.withCursor (s.row + 1) 0).scrolledIfOff.synced := rfl

/-- tm.putc of "\r" (R144). -/
theorem execTmPutc_return (s : State) :
    execTmPutc 0x0D#8 s = complete (s.withCursor s.row 0).scrolledIfOff.synced := rfl

/-- tm.putc of a character that is drawn, with the cursor on the grid (R144, R151). -/
theorem execTmPutc_drawn {s : State} {ch : Byte} (h1 : ch ≠ 0x0A#8) (h2 : ch ≠ 0x0D#8) (hc : s.CursorOk) :
    execTmPutc ch s =
      complete (s.withFb (putCell s.row.toNat s.col.toNat ch s.color s.fb)).advanced.scrolledIfOff.synced := by
  unfold execTmPutc State.typed
  rw [if_neg h1, if_neg h2, if_pos (by simp [State.onGrid, hc.1, hc.2])]

theorem synced_hwcur (s : State) (h : s.CursorOk) : s.synced.hwcur.toNat = 80 * s.row.toNat + s.col.toNat := by
  obtain ⟨hr, hc⟩ := h
  simp [State.synced, BitVec.toNat_add, BitVec.toNat_mul]
  omega

theorem State.advanced_eq (u : State) : u.advanced = u.withCursor u.advanced.row u.advanced.col := by
  unfold State.advanced; split <;> rfl

theorem State.scrolledIfOff_eq (u : State) :
    u.scrolledIfOff = (u.withFb u.scrolledIfOff.fb).withCursor u.scrolledIfOff.row u.scrolledIfOff.col := by
  unfold State.scrolledIfOff; split <;> rfl

theorem State.typed_eq {s u : State} {ch : Byte} (h : s.typed ch = some u) :
    u = (s.withFb u.fb).withCursor u.row u.col := by
  obtain ⟨_, rfl⟩ | ⟨_, rfl⟩ | ⟨_, _, _, rfl⟩ := State.typed_cases h
  · rfl
  · rfl
  · rw [State.advanced_eq]; rfl

/-- The frame of tm.putc (R144): FB, ROW, COL, HWCUR and STATUS, and nothing else. -/
theorem execTmPutc_frame {s u : State} {ch : Byte} (h : s.typed ch = some u) :
    u.scrolledIfOff.synced.withOk =
      { s with
        fb := u.scrolledIfOff.fb, row := u.scrolledIfOff.row, col := u.scrolledIfOff.col
        hwcur := u.scrolledIfOff.synced.hwcur, status := 0 } := by
  have h1 := State.typed_eq h
  have h2 := State.scrolledIfOff_eq u
  generalize u.scrolledIfOff = v at *
  rw [h2, h1]; rfl

/-- Where the character branch leaves the cursor, and FB, from the grid. -/
theorem State.typed_cursor {s u : State} {ch : Byte} (hc : s.CursorOk) (h : s.typed ch = some u) :
    u.row.toNat ≤ s.row.toNat + 1 ∧ u.col.toNat < 80 ∧ (u.row.toNat = 25 → u.col = 0) ∧
      (u.fb = s.fb ∨ u.fb = putCell s.row.toNat s.col.toNat ch s.color s.fb) ∧ u.color = s.color := by
  obtain ⟨hr, hcl⟩ := hc
  obtain ⟨_, rfl⟩ | ⟨_, rfl⟩ | ⟨_, _, _, rfl⟩ := State.typed_cases h
  · simp; omega
  · simp
  · unfold State.advanced
    split
    · simp; omega
    · rename_i h80
      simp at h80 ⊢
      have : s.col.toNat ≠ 79 := fun h => h80 (BitVec.eq_of_toNat_eq (by simp; omega))
      omega

/-- The one scroll test brings the cursor back on the grid (R144, R150). -/
theorem State.scrolledIfOff_cursor {u : State} (hr : u.row.toNat ≤ 25) (hc : u.col.toNat < 80) :
    u.scrolledIfOff.CursorOk := by
  unfold State.scrolledIfOff
  split
  · exact ⟨by simp, hc⟩
  · rename_i h25
    have : u.row.toNat ≠ 25 := fun h => h25 (BitVec.eq_of_toNat_eq h)
    exact ⟨by omega, hc⟩

end Sys2Proof.Machine
end

