-- ==== Sys2Proof/Laws/Effect.lean ====
section
/-! SUPPORT. What a command can do, said once: every next state of exec, of a command word and of a step is one of these. -/

namespace Sys2Proof.Machine

/-- The next states that a command can answer with: a refusal, a value in RES, or the writes of its own. -/
inductive Effect (s : State) : Instr → State → Prop
  | refused (i : Instr) (c : Cause)
      (h : i.mnemonic ∉ [.dtEncode, .tmPutc, .tmScroll, .tmClear, .tmSetcolor, .tmRdstate]) : Effect s i (s.withRefused c)
  | answer (i : Instr) (v : Quad) (h : i.mnemonic ∈ [.dtEncode, .dtRd8, .dtRdtp, .tmRdstate, .fbRd8, .fbRd16]) :
      Effect s i (s.withRes v).withOk
  | build (h : s.installed = false) :
      Effect s .dtBuild (s.withTable (s.tbl.store 0 (tableBytes s.params.gdtInit)) (builtPointer s.params)).withOk
  | install (tp : BitVec 48) (hb : s.built = true) (hi : s.installed = false) (ht : s.tp = some tp) :
      Effect s .dtInstall (((s.emit (.loadTable (tpSize tp) (tpBase tp))).emit
        (.reloadSelectors kernelCodeSelector kernelDataSelector)).withInstalled).withOk
  | putc (ch : Byte) (u : State) (h : s.typed ch = some u) : Effect s (.tmPutc ch) u.scrolledIfOff.synced.withOk
  | scroll : Effect s .tmScroll s.scrolled.withOk
  | clear : Effect s .tmClear ((s.withFb (s.fb.store 0 (blankCells 2000 s.color))).withCursor 0 0).synced.withOk
  | setcolor (fg bg : BitVec 4) : Effect s (.tmSetcolor fg bg) (s.withColor (bg ++ fg)).withOk
  | fbStore (i : Instr) (a : Nat) (bs : List Byte) (h : i.mnemonic ∈ [.fbWr8, .fbWr16]) (hb : a + bs.length ≤ fbLength) :
      Effect s i (s.withFb (s.fb.store a bs)).withOk
  | text (i : Instr) (a : Nat) (bs : List Byte) (v : Quad) (h : i.mnemonic ∈ [.fmtUtoa, .fmtItoa, .fmtPtoa])
      (hb : a + bs.length ≤ 2 ^ 32) : Effect s i ((s.withHbuf (s.hbuf.store a bs)).withRes v).withOk
  | noText (i : Instr) (v : Quad) (h : i.mnemonic ∈ [.fmtUtoa, .fmtItoa, .fmtPtoa]) : Effect s i (s.withRes v).withOk

variable {s t : State}

theorem effect_of_putText {i : Instr} {text : List Byte} {buf cap : Word}
    (hi : i.mnemonic ∈ [.fmtUtoa, .fmtItoa, .fmtPtoa]) (h : putText text buf cap s = .next t) : Effect s i t := by
  obtain ⟨c, rfl⟩ | ⟨_, rfl⟩ | ⟨h0, h1, rfl⟩ := putText_cases h
  · exact .refused _ _ (by simp at hi; rcases hi with h | h | h <;> simp [h])
  · exact .noText _ _ hi
  · exact .text _ _ _ _ hi (by have := fitBytes_length_le text cap h0; omega)

theorem offOdd_eq (off : BitVec 12) : offOdd off = decide (off.toNat % 2 = 1) := by
  simp [offOdd, BitVec.getLsbD, Nat.testBit_zero]

theorem exec_effect {i : Instr} (h : exec i s = .next t) : Effect s i t := by
  cases i with
  | dtEncode base limit access flags =>
    obtain rfl := answer_next.1 h
    exact .answer _ _ (by simp [Instr.mnemonic])
  | dtBuild =>
    obtain ⟨_, rfl⟩ | ⟨_, rfl⟩ := execDtBuild_cases h
    · exact .refused _ _ (by decide)
    · exact .build ‹_›
  | dtInstall =>
    obtain ⟨_, rfl⟩ | ⟨tp, hb, hi, _, ht, rfl⟩ := execDtInstall_cases h
    · exact .refused _ _ (by decide)
    · exact .install tp hb hi ht
  | dtRd8 off =>
    obtain ⟨_, rfl⟩ | ⟨_, _, _, rfl⟩ := execDtRd8_cases h
    · exact .refused _ _ (by simp [Instr.mnemonic])
    · exact .answer _ _ (by simp [Instr.mnemonic])
  | dtRdtp =>
    obtain ⟨_, rfl⟩ | ⟨_, _, _, rfl⟩ := execDtRdtp_cases h
    · exact .refused _ _ (by decide)
    · exact .answer _ _ (by decide)
  | tmPutc ch =>
    obtain ⟨u, hu, rfl⟩ := execTmPutc_cases h
    exact .putc ch u hu
  | tmScroll =>
    obtain rfl := complete_next.1 h
    exact .scroll
  | tmClear =>
    obtain rfl := complete_next.1 h
    exact .clear
  | tmSetcolor fg bg =>
    obtain rfl := complete_next.1 h
    exact .setcolor fg bg
  | tmRdstate =>
    obtain rfl := answer_next.1 h
    exact .answer _ _ (by decide)
  | fbRd8 off =>
    obtain ⟨_, rfl⟩ | ⟨_, _, rfl⟩ := execFbRd8_cases h
    · exact .refused _ _ (by simp [Instr.mnemonic])
    · exact .answer _ _ (by simp [Instr.mnemonic])
  | fbWr8 off data =>
    obtain ⟨_, rfl⟩ | ⟨hr, rfl⟩ := execFbWr8_cases h
    · exact .refused _ _ (by simp [Instr.mnemonic])
    · exact .fbStore _ _ _ (by simp [Instr.mnemonic]) (by simpa [leBytes] using hr)
  | fbRd16 off =>
    obtain ⟨_, rfl⟩ | ⟨_, _, _, _, rfl⟩ := execFbRd16_cases h
    · exact .refused _ _ (by simp [Instr.mnemonic])
    · exact .answer _ _ (by simp [Instr.mnemonic])
  | fbWr16 off data =>
    obtain ⟨_, rfl⟩ | ⟨hr, ho, rfl⟩ := execFbWr16_cases h
    · exact .refused _ _ (by simp [Instr.mnemonic])
    · rw [offOdd_eq] at ho
      have ho : off.toNat % 2 ≠ 1 := of_decide_eq_false ho
      refine .fbStore _ _ _ (by simp [Instr.mnemonic]) ?_
      show off.toNat + 2 ≤ fbLength
      unfold fbLength at *
      omega
  | fmtUtoa value base upper buf cap =>
    obtain ⟨_, rfl⟩ | ⟨_, h⟩ := execFmtUtoa_cases h
    · exact .refused _ _ (by simp [Instr.mnemonic])
    · exact effect_of_putText (by simp [Instr.mnemonic]) h
  | fmtItoa value buf cap => exact effect_of_putText (by simp [Instr.mnemonic]) h
  | fmtPtoa value buf cap => exact effect_of_putText (by simp [Instr.mnemonic]) h

/-- A command word's next states: the refusal of a word that is no command, or its command's. -/
theorem runWord_cases {w : CommandWord} (h : runWord w s = .next t) :
    (∃ e, decode w = .error e ∧ t = s.withRefused (decodeCause e)) ∨ (∃ i, decode w = .ok i ∧ exec i s = .next t) := by
  unfold runWord at h
  split at h
  · exact .inl ⟨_, ‹_›, refuse_next.1 h⟩
  · exact .inr ⟨_, ‹_›, h⟩

/-- A step's next states: the state itself with no command handed over, or the next word's. -/
theorem step_cases (h : step s = .next t) :
    (s.pending = [] ∧ t = s) ∨ (∃ c rest, s.pending = c :: rest ∧ runWord c.word (s.accept c rest) = .next t) := by
  unfold step runNext at h
  split at h
  · exact .inl ⟨‹_›, by simpa using h.symm⟩
  · exact .inr ⟨_, _, ‹_›, h⟩

end Sys2Proof.Machine
end

