-- ==== Sys2Proof/Laws/PerInstr.lean ====
section
/-! SUPPORT. One statement of every command, by constructor: it is well-formed, the opcode of its word names its row of
R80, and its word has no reserved bit set (spec/30_encoding.md R71, R82). -/

namespace Sys2Proof.Laws.EncodeShape

/-- The shape of a command's word. -/
def Statement (i : Instr) : Prop :=
  i.wf = true ∧ mnemonicOf (field 0 8 (encode i)) = some i.mnemonic ∧
    encode i &&& reservedMask (formatOf i.mnemonic) = 0#128

theorem fits_toNat {n : Nat} (v : BitVec n) : fits n v.toNat = true := by simp [fits, v.isLt]

theorem fits_bool (b : Bool) : fits 1 b.toNat = true := by cases b <;> rfl

/-- The opcode byte of a word whose operand fields all stand above it. -/
theorem mnemonicOf_opcode (m : Mnemonic) : mnemonicOf (opcode m) = some m := by cases m <;> decide

theorem opcode_field (m : Mnemonic) (rest : CommandWord) (h : field 0 8 rest = 0#8) :
    mnemonicOf (field 0 8 (place 0 (opcode m) ||| rest)) = some m := by
  rw [field_or, field_place_same 0 (opcode m) (by decide), h, BitVec.or_zero, mnemonicOf_opcode]

theorem dtEncode (base : Word) (limit : BitVec 20) (access : Byte) (flags : BitVec 4) : Statement (.dtEncode base limit access flags) := by
  refine ⟨by simp [Instr.wf, fits_toNat], opcode_field .dtEncode _ ?_, ?_⟩
  · simp (disch := decide) [field_or, field_place_apart]
  · simp (disch := decide) [encode, Instr.mnemonic, formatOf, reservedMask, BitVec.and_or_distrib_right,
      place_and_ones]

theorem dtBuild : Statement .dtBuild := by unfold Statement; decide

theorem dtInstall : Statement .dtInstall := by unfold Statement; decide

theorem dtRd8 (off : BitVec 6) : Statement (.dtRd8 off) := by
  refine ⟨by simp [Instr.wf, fits_toNat], opcode_field .dtRd8 _ ?_, ?_⟩
  · simp (disch := decide) [field_place_apart]
  · simp (disch := decide) [encode, Instr.mnemonic, formatOf, reservedMask, BitVec.and_or_distrib_right,
      place_and_ones]

theorem dtRdtp : Statement .dtRdtp := by unfold Statement; decide

theorem tmPutc (ch : Byte) : Statement (.tmPutc ch) := by
  refine ⟨by simp [Instr.wf, fits_toNat], opcode_field .tmPutc _ ?_, ?_⟩
  · simp (disch := decide) [field_place_apart]
  · simp (disch := decide) [encode, Instr.mnemonic, formatOf, reservedMask, BitVec.and_or_distrib_right,
      place_and_ones]

theorem tmScroll : Statement .tmScroll := by unfold Statement; decide

theorem tmClear : Statement .tmClear := by unfold Statement; decide

theorem tmSetcolor (fg bg : BitVec 4) : Statement (.tmSetcolor fg bg) := by
  refine ⟨by simp [Instr.wf, fits_toNat], opcode_field .tmSetcolor _ ?_, ?_⟩
  · simp (disch := decide) [field_or, field_place_apart]
  · simp (disch := decide) [encode, Instr.mnemonic, formatOf, reservedMask, BitVec.and_or_distrib_right,
      place_and_ones]

theorem tmRdstate : Statement .tmRdstate := by unfold Statement; decide

theorem fbRd8 (off : BitVec 12) : Statement (.fbRd8 off) := by
  refine ⟨by simp [Instr.wf, fits_toNat], opcode_field .fbRd8 _ ?_, ?_⟩
  · simp (disch := decide) [field_place_apart]
  · simp (disch := decide) [encode, Instr.mnemonic, formatOf, reservedMask, BitVec.and_or_distrib_left,
      BitVec.and_or_distrib_right, place_and_ones]

theorem fbWr8 (off : BitVec 12) (data : Byte) : Statement (.fbWr8 off data) := by
  refine ⟨by simp [Instr.wf, fits_toNat], opcode_field .fbWr8 _ ?_, ?_⟩
  · simp (disch := decide) [field_or, field_place_apart]
  · simp (disch := decide) [encode, Instr.mnemonic, formatOf, reservedMask, BitVec.and_or_distrib_left,
      BitVec.and_or_distrib_right, place_and_ones]

theorem fbRd16 (off : BitVec 12) : Statement (.fbRd16 off) := by
  refine ⟨by simp [Instr.wf, fits_toNat], opcode_field .fbRd16 _ ?_, ?_⟩
  · simp (disch := decide) [field_place_apart]
  · simp (disch := decide) [encode, Instr.mnemonic, formatOf, reservedMask, BitVec.and_or_distrib_left,
      BitVec.and_or_distrib_right, place_and_ones]

theorem fbWr16 (off : BitVec 12) (data : Half) : Statement (.fbWr16 off data) := by
  refine ⟨by simp [Instr.wf, fits_toNat], opcode_field .fbWr16 _ ?_, ?_⟩
  · simp (disch := decide) [field_or, field_place_apart]
  · simp (disch := decide) [encode, Instr.mnemonic, formatOf, reservedMask, BitVec.and_or_distrib_right,
      place_and_ones]

theorem fmtUtoa (value : Word) (base : Byte) (upper : Bool) (buf cap : Word) : Statement (.fmtUtoa value base upper buf cap) := by
  refine ⟨by simp [Instr.wf, fits_toNat, fits_bool], opcode_field .fmtUtoa _ ?_, ?_⟩
  · simp (disch := decide) [field_or, field_place_apart]
  · simp (disch := decide) [encode, Instr.mnemonic, formatOf, reservedMask, BitVec.and_or_distrib_right,
      place_and_ones]

theorem fmtItoa (value buf cap : Word) : Statement (.fmtItoa value buf cap) := by
  refine ⟨by simp [Instr.wf, fits_toNat], opcode_field .fmtItoa _ ?_, ?_⟩
  · simp (disch := decide) [field_or, field_place_apart]
  · simp (disch := decide) [encode, Instr.mnemonic, formatOf, reservedMask, BitVec.and_or_distrib_right,
      place_and_ones]

theorem fmtPtoa (value buf cap : Word) : Statement (.fmtPtoa value buf cap) := by
  refine ⟨by simp [Instr.wf, fits_toNat], opcode_field .fmtPtoa _ ?_, ?_⟩
  · simp (disch := decide) [field_or, field_place_apart]
  · simp (disch := decide) [encode, Instr.mnemonic, formatOf, reservedMask, BitVec.and_or_distrib_right,
      place_and_ones]

end Sys2Proof.Laws.EncodeShape
end

