-- ==== Sys2Proof/Tests/Slice0.lean ====
section
/-! SUPPORT. The model's own tests: the well-formedness smoke, the words of the encoding tables, one or two vectors of
spec/95_test_vectors.md for each command, and a witness for the hypotheses of every statement. Expected values are the
spec's, or worked out from its rules by hand; none is the model's own answer. -/

namespace Sys2Proof.Tests

open Sys2Proof.Machine Sys2Proof.Spec

/-! ## Small states -/

/-- The block from reset with the parameters of spec/95_test_vectors.md: TABLE_BASE 0x00101000, the default GDT_INIT. -/
def start : State := { State.reset with params := { tableBase := 0x00101000, fbBase := 0, gdtInit := gdtDefault } }

/-- The cursor at a cell. -/
def at' (r : BitVec 5) (c : BitVec 7) : State := { start with row := r, col := c }

/-- A table built. -/
def built : State :=
  { start with built := true, tbl := cellsFrom 0 (tableBytes gdtDefault), tp := some 0x00101000002F }

/-- A table built and installed. -/
def installed : State :=
  { built with installed := true, cpuEvents := [.loadTable 0x002F 0x00101000, .reloadSelectors 0x0008 0x0010] }

/-- Cell (24, 79), and cell (0, 0)'s character alone, defined. -/
def drawnOn : State := { start with fb := [(0, 0x41), (3998, 0x58), (3999, 0x1E)] }

/-- What `f` reads of the next state, if there is one. -/
def seen {α : Type} (r : Result) (f : State → α) : Option α :=
  match r with
  | .next t => some (f t)
  | .fault _ => none
  | .refused _ => none

/-- The texts of the expected bytes. -/
def ascii (s : String) : List Byte := s.toList.map (fun c => BitVec.ofNat 8 c.toNat)

/-! ## Well-formedness: each check refuses an ill-formed term (R85, R86) -/

theorem test_wf_dtEncode_base : (Source.dtEncode (2 ^ 32) 0 0 0).wf = false := by decide
theorem test_wf_dtEncode_limit : (Source.dtEncode 0 0x100000 0 0).wf = false := by decide
theorem test_wf_dtEncode_access : (Source.dtEncode 0 0 0x100 0).wf = false := by decide
theorem test_wf_dtEncode_flags : (Source.dtEncode 0 0 0 0x10).wf = false := by decide
theorem test_wf_dtRd8_off : (Source.dtRd8 64).wf = false := by decide
theorem test_wf_tmPutc_ch : (Source.tmPutc 256).wf = false := by decide
theorem test_wf_tmSetcolor_fg : (Source.tmSetcolor 16 0).wf = false := by decide
theorem test_wf_tmSetcolor_bg : (Source.tmSetcolor 0 16).wf = false := by decide
theorem test_wf_fbRd8_off : (Source.fbRd8 4096).wf = false := by decide
theorem test_wf_fbWr8_off : (Source.fbWr8 4096 0).wf = false := by decide
theorem test_wf_fbWr8_data : (Source.fbWr8 0 256).wf = false := by decide
theorem test_wf_fbRd16_off : (Source.fbRd16 4096).wf = false := by decide
theorem test_wf_fbWr16_off : (Source.fbWr16 4096 0).wf = false := by decide
theorem test_wf_fbWr16_data : (Source.fbWr16 0 0x10000).wf = false := by decide
theorem test_wf_fmtUtoa_value : (Source.fmtUtoa (2 ^ 32) 10 0 0 0).wf = false := by decide
theorem test_wf_fmtUtoa_base : (Source.fmtUtoa 0 256 0 0 0).wf = false := by decide
theorem test_wf_fmtUtoa_upper : (Source.fmtUtoa 0 10 2 0 0).wf = false := by decide
theorem test_wf_fmtUtoa_buf : (Source.fmtUtoa 0 10 0 (2 ^ 32) 0).wf = false := by decide
theorem test_wf_fmtUtoa_cap : (Source.fmtUtoa 0 10 0 0 (2 ^ 32)).wf = false := by decide
theorem test_wf_fmtItoa_low : (Source.fmtItoa (-2147483649) 0 0).wf = false := by decide
theorem test_wf_fmtItoa_high : (Source.fmtItoa 4294967296 0 0).wf = false := by decide
theorem test_wf_fmtItoa_buf : (Source.fmtItoa 0 (2 ^ 32) 0).wf = false := by decide
theorem test_wf_fmtItoa_cap : (Source.fmtItoa 0 0 (2 ^ 32)).wf = false := by decide
theorem test_wf_fmtPtoa_value : (Source.fmtPtoa (2 ^ 32) 0 0).wf = false := by decide
theorem test_wf_fmtPtoa_buf : (Source.fmtPtoa 0 (2 ^ 32) 0).wf = false := by decide
theorem test_wf_fmtPtoa_cap : (Source.fmtPtoa 0 0 (2 ^ 32)).wf = false := by decide
theorem test_wf_tmWrite_terminator : (Source.tmWrite [0x41, 0x00]).wf = false := by decide
theorem test_wf_accepts_the_widest :
    (Source.dtEncode 0xFFFFFFFF 0xFFFFF 0xFF 0xF).wf = true ∧ (Source.fmtItoa (-2147483648) 0xFFFFFFFF 0).wf = true := by
  decide
theorem test_assembler_rejects_and_does_not_mask : assemble (.tmPutc 256) = none := by decide

/-! ## Decoding: the word of each row, its fields written out in the order of R72 to R79 from bit 127 down -/

theorem test_decode_dtEncode :
    decode (0#56 ++ 0xC#4 ++ 0x9A#8 ++ 0xABCDE#20 ++ 0x12345678#32 ++ 0b00000001#8) =
      .ok (.dtEncode 0x12345678 0xABCDE 0x9A 0xC) := by decide
theorem test_decode_dtBuild : decode (0#120 ++ 0b00000010#8) = .ok .dtBuild := by decide
theorem test_decode_dtInstall : decode (0#120 ++ 0b00000011#8) = .ok .dtInstall := by decide
theorem test_decode_dtRd8 : decode (0#114 ++ 0b101101#6 ++ 0b00000100#8) = .ok (.dtRd8 45) := by decide
theorem test_decode_dtRdtp : decode (0#120 ++ 0b00000101#8) = .ok .dtRdtp := by decide
theorem test_decode_tmPutc : decode (0#112 ++ 0b01000001#8 ++ 0b00010000#8) = .ok (.tmPutc 0x41) := by decide
theorem test_decode_tmScroll : decode (0#120 ++ 0b00010001#8) = .ok .tmScroll := by decide
theorem test_decode_tmClear : decode (0#120 ++ 0b00010010#8) = .ok .tmClear := by decide
theorem test_decode_tmSetcolor :
    decode (0#112 ++ 0b0001#4 ++ 0b0100#4 ++ 0b00010011#8) = .ok (.tmSetcolor 4 1) := by decide
theorem test_decode_tmRdstate : decode (0#120 ++ 0b00010100#8) = .ok .tmRdstate := by decide
theorem test_decode_fbRd8 : decode (0#108 ++ 0b111110011111#12 ++ 0b00011000#8) = .ok (.fbRd8 3999) := by decide
theorem test_decode_fbWr8 :
    decode (0#100 ++ 0b01000001#8 ++ 0b111110011111#12 ++ 0b00011001#8) = .ok (.fbWr8 3999 0x41) := by decide
theorem test_decode_fbRd16 : decode (0#108 ++ 0b000010100000#12 ++ 0b00011010#8) = .ok (.fbRd16 160) := by decide
theorem test_decode_fbWr16 :
    decode (0#92 ++ 0b0001111001011000#16 ++ 0b111110011110#12 ++ 0b00011011#8) = .ok (.fbWr16 3998 0x1E58) := by decide
theorem test_decode_fmtUtoa :
    decode (16#32 ++ 0x1000#32 ++ 0#15 ++ 0b1#1 ++ 0b00010000#8 ++ 0xDEADBEEF#32 ++ 0b00100000#8) =
      .ok (.fmtUtoa 0xDEADBEEF 16 true 0x1000 16) := by decide
theorem test_decode_fmtItoa :
    decode (12#32 ++ 0x1000#32 ++ 0#24 ++ 0x80000000#32 ++ 0b00100001#8) = .ok (.fmtItoa 0x80000000 0x1000 12) := by decide
theorem test_decode_fmtPtoa :
    decode (11#32 ++ 0x2000#32 ++ 0#24 ++ 0x1234ABCD#32 ++ 0b00100010#8) = .ok (.fmtPtoa 0x1234ABCD 0x2000 11) := by decide
theorem test_decode_bytes :
    decodeBytes [0x19, 0x00, 0x10, 0x04, 0, 0, 0, 0, 0, 0, 0, 0, 0, 0, 0, 0] = .ok (.fbWr8 0 0x41) := by decide
theorem test_decode_short_bytes : decodeBytes [0x02] = .error .notOneWord := by decide
/-- VR1 to VR3. -/
theorem test_decode_badOpcode :
    decode 0x00 = .error .badOpcode ∧ decode 0x06 = .error .badOpcode ∧ decode 0xFF = .error .badOpcode := by decide
/-- VR4 to VR8. -/
theorem test_decode_reservedBits :
    decode 0x0102 = .error .reservedBits ∧ decode 0x80000000000000000000000000004110 = .error .reservedBits ∧
    decode 0x00000000000000000002000000000520 = .error .reservedBits ∧
    decode 0x00000000000001000000000000000001 = .error .reservedBits ∧
    decode 0x000000000000000000000000100F9F18 = .error .reservedBits := by decide

/-! ## One command, one step (spec/95_test_vectors.md) -/

/-- W9. -/
theorem test_dtEncode_kernel_code :
    seen (exec (.dtEncode 0 0xFFFFF 0x9A 0xC) start) State.res = some (some 0x00CF9A000000FFFF) := by decide
/-- R105 by hand: base in bytes 2 to 4 and 7, limit in bytes 0, 1 and the low nibble of 6. -/
theorem test_dtEncode_every_field :
    seen (exec (.dtEncode 0x12345678 0xABCDE 0x9A 0xC) start) State.res = some (some 0x12CA9A345678BCDE) := by decide
/-- R112's worked example: offsets 8 to 15. -/
theorem test_dtBuild_kernel_code_entry :
    seen (exec .dtBuild start) (fun t => (List.range 8).map (fun k => t.tbl.load (8 + k))) =
      some ([0xFF, 0xFF, 0x00, 0x00, 0x00, 0x9A, 0xCF, 0x00].map some) := by decide
theorem test_dtBuild_pointer :
    seen (exec .dtBuild start) (fun t => (t.tp, t.built)) = some (some 0x00101000002F, true) := by decide
/-- R109: the size's low byte first, then its high byte, then the base from its low byte up. -/
theorem test_table_pointer_bytes :
    tablePointerBytes (tablePointer 0x002F 0x00101000) = [0x2F, 0x00, 0x00, 0x10, 0x10, 0x00] := by decide
/-- P1, step 5. -/
theorem test_dtInstall_events :
    seen (exec .dtInstall built) (fun t => (t.cpuEvents, t.installed)) =
      some ([.loadTable 0x002F 0x00101000, .reloadSelectors 0x0008 0x0010], true) := by decide
theorem test_dtInstall_interrupts_on :
    seen (exec .dtInstall { built with cpuIf := true }) (fun t => (t.status, t.installed)) = some (5, false) := by decide
/-- P1, step 4. -/
theorem test_dtRd8_byte : seen (exec (.dtRd8 14) built) State.res = some (some 0xCF) := by decide
theorem test_dtRd8_past_table : seen (exec (.dtRd8 48) start) State.status = some 6 := by decide
/-- P1, step 3. -/
theorem test_dtRdtp_value : seen (exec .dtRdtp built) State.res = some (some 0x000000101000002F) := by decide
theorem test_dtRdtp_not_built : seen (exec .dtRdtp start) (fun t => (t.status, t.res)) = some (3, none) := by decide
/-- VT2. -/
theorem test_tmPutc_draws :
    seen (exec (.tmPutc 0x41) start) (fun t => (t.fb, t.row, t.col, t.hwcur)) =
      some ([(0, 0x41), (1, 0x07)], 0, 1, 1) := by decide
/-- VT21: the character drawn at (24, 79) is at (23, 79) after the scroll. -/
theorem test_tmPutc_last_cell :
    seen (exec (.tmPutc 0x57) (at' 24 79)) (fun t => (t.fb.load 3838, t.fb.load 3998, t.row, t.col, t.hwcur)) =
      some (some 0x57, some 0x20, 24, 0, 1920) := by decide +kernel
/-- R145's worked example. -/
theorem test_tmScroll_cursor :
    seen (exec .tmScroll { at' 3 5 with hwcur := 245 }) (fun t => (t.row, t.col, t.hwcur)) = some (24, 5, 245) := by
  decide +kernel
/-- VT18: an undefined byte moves as undefined; row 24 is blank at COLOR. -/
theorem test_tmScroll_from_reset :
    seen (exec .tmScroll start) (fun t => (t.fb.load 0, t.fb.load 3839, t.fb.load 3840, t.fb.load 3999)) =
      some (none, none, some 0x20, some 0x07) := by decide +kernel
/-- VT19. -/
theorem test_tmClear_colour :
    seen (exec .tmClear { at' 3 5 with color := 0x1F }) (fun t => (t.fb.load 0, t.fb.load 3999, t.fb.load 4000)) =
      some (some 0x20, some 0x1F, none) := by decide +kernel
theorem test_tmClear_cursor :
    seen (exec .tmClear { at' 3 5 with hwcur := 245 }) (fun t => (t.row, t.col, t.hwcur)) = some (0, 0, 0) := by
  decide +kernel
/-- VT11. -/
theorem test_tmSetcolor_nibbles : seen (exec (.tmSetcolor 4 1) start) State.color = some 0x14 := by decide
/-- VT1. -/
theorem test_tmRdstate_reset : seen (exec .tmRdstate start) State.res = some (some 0x0000000000070000) := by decide
/-- VT15. -/
theorem test_tmRdstate_fields :
    seen (exec .tmRdstate { at' 24 1 with hwcur := 1 }) State.res = some (some 0x0000000001070118) := by decide
/-- VF12, VF1. -/
theorem test_fbRd8_value : seen (exec (.fbRd8 3999) drawnOn) State.res = some (some 0x1E) := by decide
theorem test_fbRd8_undefined : seen (exec (.fbRd8 0) start) (fun t => (t.status, t.res)) = some (9, none) := by decide
/-- VF2, VF9. -/
theorem test_fbWr8_stores :
    seen (exec (.fbWr8 0 0x41) start) (fun t => (t.fb, t.row, t.col, t.hwcur)) = some ([(0, 0x41)], 0, 0, 0) := by decide
theorem test_fbWr8_past_fb : seen (exec (.fbWr8 4000 0) start) (fun t => (t.status, t.fb)) = some (7, []) := by decide
/-- VF4, VF8. -/
theorem test_fbRd16_half_undefined : seen (exec (.fbRd16 0) drawnOn) State.status = some 9 := by decide
theorem test_fbRd16_value : seen (exec (.fbRd16 3998) drawnOn) State.res = some (some 0x1E58) := by decide
/-- VF11, VF10. -/
theorem test_fbWr16_stores :
    seen (exec (.fbWr16 3998 0x1E58) start) State.fb = some [(3998, 0x58), (3999, 0x1E)] := by decide
theorem test_fbWr16_odd : seen (exec (.fbWr16 1 0) start) (fun t => (t.status, t.fb)) = some (8, []) := by decide
/-- W8. -/
theorem test_fmtUtoa_truncates :
    seen (exec (.fmtUtoa 12345 10 false 0x1000 4) start) (fun t => (t.hbuf, t.res)) =
      some (cellsFrom 0x1000 [0x31, 0x32, 0x33, 0x00], some 3) := by decide
/-- W4. -/
theorem test_fmtUtoa_upper_hex :
    seen (exec (.fmtUtoa 0xDEADBEEF 16 true 0x1000 16) start) (fun t => (t.hbuf, t.res)) =
      some (cellsFrom 0x1000 (ascii "DEADBEEF" ++ [0x00]), some 8) := by decide +kernel
/-- W5. -/
theorem test_fmtItoa_minimum :
    seen (exec (.fmtItoa 0x80000000 0x1000 12) start) (fun t => (t.hbuf, t.res)) =
      some (cellsFrom 0x1000 (ascii "-2147483648" ++ [0x00]), some 11) := by decide +kernel
/-- VM16. -/
theorem test_fmtItoa_sign_is_a_character :
    seen (exec (.fmtItoa 0xFFFFFFD6 0x1000 2) start) (fun t => (t.hbuf, t.res)) =
      some (cellsFrom 0x1000 [0x2D, 0x00], some 1) := by decide
/-- VM19. -/
theorem test_fmtPtoa_text :
    seen (exec (.fmtPtoa 0x1234ABCD 0x1000 11) start) (fun t => (t.hbuf, t.res)) =
      some (cellsFrom 0x1000 (ascii "0x1234abcd" ++ [0x00]), some 10) := by decide +kernel
/-- VM23. -/
theorem test_fmtPtoa_past_the_top :
    seen (exec (.fmtPtoa 0x1234ABCD 0xFFFFFFF8 11) start) (fun t => (t.status, t.hbuf)) = some (11, []) := by decide
/-- VR9: the mark stays. -/
theorem test_mark_is_sticky :
    seen (runWord 0x14 { start with status := 1, refusedMark := true }) (fun t => (t.status, t.refusedMark)) =
      some (0, true) := by decide

/-! ## The host's two questions, on one word -/

theorem test_decodeTableWord : decodeTableWord 128 0x4110 = some (.tmPutc 0x41) := by decide
theorem test_withFetchWord :
    seen (step (start.withFetchWord 128 0x1413)) (fun t => (t.color, t.pending)) = some (0x14, []) := by decide

/-! ## The assembler, on lines of text (R85, R86) -/

theorem test_assembler_line :
    assembleLine "dt.encode 0, 0xFFFFF, 0x9A, 0xC ; kernel code".toList = some [.dtEncode 0 0xFFFFF 0x9A 0xC] := by
  decide +kernel
theorem test_assembler_literals :
    assembleLine "tm.putc '\\n'".toList = some [.tmPutc 0x0A] ∧
    assembleLine "fmt.itoa -42, 0x1000, 2".toList = some [.fmtItoa 0xFFFFFFD6 0x1000 2] ∧
    assembleLine "tm.write \"ok\\n\"".toList = some [.tmPutc 0x6F, .tmPutc 0x6B, .tmPutc 0x0A] ∧
    assembleLine "fb.wr16 0, sel(3, 3)".toList = some [.fbWr16 0 0x1B] := by decide +kernel

/-! ## Witnesses: for each statement with hypotheses, a state and operands that meet them all, clause by clause -/

theorem witness_DecodedWordEncodesToItself : decode 0x4110 = .ok (.tmPutc 0x41) := by decide
/-- The opcodes next to every range of R81. -/
theorem witness_IllegalOpcodes :
    [0x00, 0x06, 0x0F, 0x15, 0x17, 0x1C, 0x1F, 0x23, 0xFF].all (fun n => decide (decode (wordOf n) = .error .badOpcode)) ∧
    [0x01, 0x05, 0x10, 0x14, 0x18, 0x1B, 0x20, 0x22].all (fun n => decide (decode (wordOf n) ≠ .error .badOpcode)) := by
  decide
theorem witness_WordIsItsRowsCommand :
    (0x4110#128 &&& (row .tmPutc).1 = (row .tmPutc).2) ∧
    (0x0102#128 &&& 0xFF#128 = (row .dtBuild).2 ∧ 0x0102#128 &&& (row .dtBuild).1 ≠ (row .dtBuild).2) := by decide
theorem witness_ReservedBits :
    (0x80000000000000000000000000004110#128 &&& 0xFF#128 = (row .tmPutc).2) ∧
    (0x80000000000000000000000000004110#128 &&& (row .tmPutc).1 ≠ (row .tmPutc).2) := by decide

/-- The block with `w` next and `dt.build` after it. -/
def offered (w : CommandWord) : State := { start with pending := [⟨w, true⟩, ⟨0x02, false⟩] }

theorem witness_StepRunsTheDecodedCommand :
    (offered 0x4110).pending = ⟨0x4110, true⟩ :: [⟨0x02, false⟩] ∧ decode 0x4110 = .ok (.tmPutc 0x41) := by decide
theorem witness_StepRefusesWhatIsNoCommand :
    (offered 0x00).pending = ⟨0x00, true⟩ :: [⟨0x02, false⟩] ∧ decode 0x00 = .error .badOpcode ∧
    (offered 0x0102).pending = ⟨0x0102, true⟩ :: [⟨0x02, false⟩] ∧ decode 0x0102 = .error .reservedBits := by decide
theorem witness_StepWithNoCommand : start.pending = [] := rfl
/-- A command that completes and one that is refused. -/
theorem witness_a_command_goes_on :
    (∃ t, exec .dtBuild start = .next t) ∧ (∃ t, exec .dtBuild installed = .next t) := ⟨⟨_, rfl⟩, ⟨_, rfl⟩⟩

theorem witness_RefusedCommandsWrite : ∃ t, runWord 0 start = .next t ∧ t.status ≠ 0 := ⟨_, rfl, by decide⟩
/-- Each value of the mark, before and after. -/
theorem witness_MarkIsSticky :
    (∃ t, runWord 0 start = .next t) ∧ (∃ t, runWord 0x14 start = .next t) ∧
    (∃ t, runWord 0x14 { start with refusedMark := true } = .next t) := ⟨⟨_, rfl⟩, ⟨_, rfl⟩, ⟨_, rfl⟩⟩

theorem witness_FirstCause_decode : decode 0x00 = .error .badOpcode ∧ decode 0x0102 = .error .reservedBits := by decide
/-- dt.rd8 at 47, 48 and 63, a table not built; dt.install in each of its three states. -/
theorem witness_FirstCause_dte :
    installed.installed = true ∧ 48 ≤ (48#6).toNat ∧ 48 ≤ (63#6).toNat ∧ (47#6).toNat < 48 ∧ start.built = false ∧
    (installed.built = true ∧ installed.installed = true) ∧
    (built.built = true ∧ built.installed = false ∧ { built with cpuIf := true }.cpuIf = true) := by decide
/-- Offsets 3998, 3999, 4000, 4001 and 4095, and a cell of which one byte is undefined, either way round. -/
theorem witness_FirstCause_fb :
    4000 ≤ (4000#12).toNat ∧ 4000 ≤ (4001#12).toNat ∧ 4000 ≤ (4095#12).toNat ∧
    ((3999#12).toNat < 4000 ∧ (3999#12).toNat % 2 = 1) ∧ ((3998#12).toNat < 4000 ∧ (3998#12).toNat % 2 = 0) ∧
    start.fb.load (3999#12).toNat = none ∧
    (drawnOn.fb.load (0#12).toNat ≠ none ∧ drawnOn.fb.load ((0#12).toNat + 1) = none) ∧
    (Memory.load [(1, 0x07#8)] 0 = none ∧ Memory.load [(1, 0x07#8)] 1 ≠ none) := by decide
/-- Bases beside 10 and 16; buffers one past the top and, the complement, up to it. -/
theorem witness_FirstCause_fmt :
    (9#8 ≠ 10 ∧ 9#8 ≠ 16) ∧ (11#8 ≠ 10 ∧ 11#8 ≠ 16) ∧ (15#8 ≠ 10 ∧ 15#8 ≠ 16) ∧ (17#8 ≠ 10 ∧ 17#8 ≠ 16) ∧
    (10#8 = 10 ∨ 10#8 = 16) ∧ (16#8 = 10 ∨ 16#8 = 16) ∧
    2 ^ 32 < (0xFFFFFFFF#32).toNat + (2#32).toNat ∧ ¬2 ^ 32 < (0xFFFFFFFF#32).toNat + (1#32).toNat := by decide
theorem witness_TermAndEncode :
    (∃ t, exec (.dtEncode 0 0xFFFFF 0x9A 0xC) start = .next t) ∧ (∃ t, exec (.tmPutc 0x41) start = .next t) ∧
    (∃ t, exec .tmScroll start = .next t) ∧ (∃ t, exec .tmClear start = .next t) ∧
    (∃ t, exec (.tmSetcolor 15 15) start = .next t) ∧ (∃ t, exec .tmRdstate start = .next t) :=
  ⟨⟨_, rfl⟩, ⟨_, rfl⟩, ⟨_, rfl⟩, ⟨_, rfl⟩, ⟨_, rfl⟩, ⟨_, rfl⟩⟩

/-- The first and the last entry, the first and the last byte; an offset past the table. -/
theorem witness_DtBuild :
    start.installed = false ∧ installed.installed = true ∧
    (gdtEntries start.params.gdtInit)[0]? = some start.params.gdtInit.null ∧
    (gdtEntries start.params.gdtInit)[5]? = some start.params.gdtInit.taskState ∧ 0 < 8 ∧ 7 < 8 ∧ 48 ≤ 48 := by decide
theorem witness_SecondBuild : start.installed = false ∧ ∃ t, exec .dtBuild start = .next t := ⟨rfl, _, rfl⟩
theorem witness_DefaultTableBytes :
    start.installed = false ∧ start.params.gdtInit = gdtDefault ∧ 0 < 48 ∧ 47 < 48 := by decide
theorem witness_DtReads :
    (0#6).toNat < 48 ∧ (47#6).toNat < 48 ∧ built.built = true ∧ built.tbl.load (0#6).toNat = some 0x00 ∧
    built.tbl.load (47#6).toNat = some 0x00 ∧ built.tp = some 0x00101000002F := by decide
theorem witness_BuiltTableReadsBack :
    start.installed = false ∧
    (gdtEntries start.params.gdtInit)[(0#6).toNat / 8]? = some start.params.gdtInit.null ∧
    (gdtEntries start.params.gdtInit)[(47#6).toNat / 8]? = some start.params.gdtInit.taskState ∧
    (gdtEntries start.params.gdtInit)[(48#6).toNat / 8]? = none := by decide
theorem witness_DtInstall :
    built.built = true ∧ built.installed = false ∧ built.cpuIf = false ∧ built.tp = some 0x00101000002F := by decide
/-- Two commands, dt.build and dt.install, refused after the install. -/
theorem witness_InstalledTableNeverChanges :
    installed.installed = true ∧
    ∃ t, Sys2Proof.core.run 2 { installed with pending := [⟨0x02, false⟩, ⟨0x03, false⟩] } = .next t := ⟨rfl, _, rfl⟩

/-- Both sides of the inner if, at (0, 0), (24, 78) and (23, 79); the control characters are not drawn. -/
theorem witness_PutcDraws :
    (drawn 0x41 ∧ drawn 0x00 ∧ drawn 0xFF ∧ drawn 0x09) ∧
    ((at' 0 0).CursorOk ∧ ¬((at' 0 0).row.toNat = 24 ∧ (at' 0 0).col.toNat = 79)) ∧
    ((at' 24 78).CursorOk ∧ ¬((at' 24 78).row.toNat = 24 ∧ (at' 24 78).col.toNat = 79)) ∧
    ((at' 23 79).CursorOk ∧ ¬((at' 23 79).row.toNat = 24 ∧ (at' 23 79).col.toNat = 79)) := by
  unfold drawn; decide
theorem witness_PutcControlCharacters :
    ((at' 23 79).row.toNat < 24 ∧ (at' 23 79).col.toNat < 80) ∧ (at' 24 79).CursorOk := by decide
theorem witness_PutcAtTheBottom :
    ((at' 24 0).row.toNat = 24 ∧ (at' 24 0).col.toNat < 80 ∧ (0x0A#8 = 0x0A ∨ (drawn 0x0A ∧ (at' 24 0).col.toNat = 79))) ∧
    ((at' 24 79).row.toNat = 24 ∧ (at' 24 79).col.toNat < 80 ∧
      (0x57#8 = 0x0A ∨ (drawn 0x57 ∧ (at' 24 79).col.toNat = 79))) := by
  unfold drawn; decide
theorem witness_CursorStays :
    (at' 24 79).CursorOk ∧ (∃ t, step { at' 24 79 with pending := [⟨0x0A10, false⟩] } = .next t) ∧
    (∃ t, exec (.tmPutc 0x0D) (at' 24 79) = .next t) ∧ (∃ t, exec .tmClear (at' 24 79) = .next t) :=
  ⟨by decide, ⟨_, rfl⟩, ⟨_, rfl⟩, ⟨_, rfl⟩⟩
theorem witness_PutcScrollsAtMostOnce : (at' 24 79).CursorOk ∧ ∃ t, exec (.tmPutc 0x0A) (at' 24 79) = .next t :=
  ⟨by decide, _, rfl⟩
/-- A row just past the grid, and a column just past it. -/
theorem witness_PutcOutsideTheGrid : drawn 0x41 ∧ ¬(at' 25 0).CursorOk ∧ ¬(at' 0 80).CursorOk := by unfold drawn; decide
/-- An FB offset on each side of the moved rows, of the blank row and of the end of FB. -/
theorem witness_TmScroll : 0 < 3840 ∧ 3839 < 3840 ∧ (3840 ≤ 3840 ∧ 3840 < 4000) ∧ (3840 ≤ 3999 ∧ 3999 < 4000) ∧ 4000 ≤ 4000 := by
  decide
theorem witness_ScrollIsTheAscendingLoop : drawnOn.fb.wf ∧ drawnOn.fb ≠ [] := by decide
theorem witness_TmClear : 0 < 4000 ∧ 3999 < 4000 ∧ 4000 ≤ 4000 ∧ drawnOn.fb.wf := by decide
theorem witness_WrapComesBeforeScroll :
    (List.replicate 80 0x2E#8).length = 80 ∧ (∀ x ∈ List.replicate 80 0x2E#8, x ≠ 0x0A#8 ∧ x ≠ 0x0D#8) ∧ drawn 0x23 := by
  unfold drawn; decide

theorem witness_FbReads :
    ((3999#12).toNat < 4000 ∧ drawnOn.fb.load (3999#12).toNat = some 0x1E) ∧
    ((0#12).toNat < 4000 ∧ drawnOn.fb.load (0#12).toNat = some 0x41) ∧
    ((3998#12).toNat < 4000 ∧ (3998#12).toNat % 2 = 0 ∧ drawnOn.fb.load (3998#12).toNat = some 0x58 ∧
      drawnOn.fb.load ((3998#12).toNat + 1) = some 0x1E) := by decide
theorem witness_FbWrites : (3999#12).toNat < 4000 ∧ ((3998#12).toNat < 4000 ∧ (3998#12).toNat % 2 = 0) := by decide

/-- Both bases, and 0, whose one digit is 0. -/
theorem witness_UtoaText : (10 = 10 ∨ 10 = 16) ∧ (16 = 10 ∨ 16 = 16) ∧ utoaText 0 10 false = [digit 0 false] := by decide
theorem witness_PtoaText : 0 < 8 ∧ 7 < 8 := by decide
/-- A buffer that ends at the top of HBUF, one of a single byte, one wide enough for any text. -/
theorem witness_FmtCommandsWrite :
    (10#8 = 10 ∨ 10#8 = 16) ∧ (16#8 = 10 ∨ 16#8 = 16) ∧
    (0 < (2#32).toNat ∧ (0xFFFFFFFE#32).toNat + (2#32).toNat ≤ 2 ^ 32) ∧
    (0 < (1#32).toNat ∧ (0xFFFFFFFF#32).toNat + (1#32).toNat ≤ 2 ^ 32) ∧
    (0 < (16#32).toNat ∧ (0x1000#32).toNat + (16#32).toNat ≤ 2 ^ 32) := by decide
theorem witness_FmtWithNoCapacity : (10#8 = 10 ∨ 10#8 = 16) ∧ (16#8 = 10 ∨ 16#8 = 16) := by decide
theorem witness_FmtDependsOnItsOperandsAlone :
    isFmt (.fmtUtoa 5 8 false 0x1000 4) = true ∧ isFmt (.fmtItoa 5 0x1000 4) = true ∧
    isFmt (.fmtPtoa 5 0xFFFFFFFF 4) = true := by decide

/-- A result command that completes, one that is refused, a command that returns nothing. -/
theorem witness_ResIsWritten :
    (∃ t, exec .dtRdtp built = .next t ∧ returnsValue .dtRdtp = true ∧ t.status = 0) ∧
    (∃ t, exec .dtRdtp start = .next t ∧ (returnsValue .dtRdtp = false ∨ t.status ≠ 0)) ∧
    (∃ t, exec .dtBuild start = .next t ∧ (returnsValue .dtBuild = false ∨ t.status ≠ 0)) ∧
    (∃ t, runWord 0x0102 start = .next t ∧ t.status ≠ 0) :=
  ⟨⟨_, rfl, by decide⟩, ⟨_, rfl, by decide⟩, ⟨_, rfl, by decide⟩, ⟨_, rfl, by decide⟩⟩
theorem witness_EachStateHasItsWriters :
    (∃ t, exec .tmScroll start = .next t) ∧ Instr.tmScroll ≠ .dtBuild ∧ Instr.tmScroll ≠ .dtInstall ∧
    Instr.tmScroll.mnemonic ≠ .tmSetcolor ∧ Instr.tmScroll.mnemonic ≠ .tmPutc ∧ Instr.tmScroll ≠ .tmClear ∧
    Instr.dtBuild ≠ .tmScroll ∧ writesFb .dtBuild = false ∧ isFmt .tmScroll = false := by
  refine ⟨⟨_, rfl⟩, ?_⟩; decide
/-- A read that completes and one that is refused; each write. -/
theorem witness_ReadsHaveNoSideEffect :
    (isRead (.dtRd8 14) = true ∧ (∃ t, exec (.dtRd8 14) built = .next t) ∧ ∃ t, exec (.dtRd8 14) start = .next t) ∧
    (isWrite (.fbWr8 3999 0x4F) = true ∧ ∃ t, exec (.fbWr8 3999 0x4F) start = .next t) ∧
    (isWrite .tmClear = true ∧ ∃ t, exec .tmClear start = .next t) ∧
    (isWrite .dtBuild = true ∧ (∃ t, exec .dtBuild start = .next t) ∧ ∃ t, exec .dtBuild installed = .next t) :=
  ⟨⟨rfl, ⟨_, rfl⟩, _, rfl⟩, ⟨rfl, _, rfl⟩, ⟨rfl, _, rfl⟩, ⟨rfl, ⟨_, rfl⟩, _, rfl⟩⟩

/-- The invariant, in a state with a table installed, a cell drawn, a refusal behind it and a command to come. -/
theorem witness_Inv :
    { installed with fb := drawnOn.fb, status := 4, refusedMark := true, pending := [⟨0x0410, false⟩] }.Inv :=
  ⟨by decide, by decide, by decide, by decide, by decide⟩
theorem witness_StepKeepsTheInvariant :
    { installed with pending := [⟨0x0410, false⟩] }.Inv ∧
    ∃ t, step { installed with pending := [⟨0x0410, false⟩] } = .next t :=
  ⟨⟨by decide, by decide, by decide, by decide, by decide⟩, _, rfl⟩

/-- An empty string, and one that holds 0x00. -/
theorem witness_Pseudo : (0x00#8 ∉ ([] : List Byte)) ∧ (0x00#8 ∈ [0x41#8, 0x00#8]) := by decide
/-- Of each field width, a literal that just fits and one that just does not. -/
theorem witness_Assembler_widths :
    (2 ^ 32 - 1 < 2 ^ 32 ∧ 2 ^ 20 - 1 < 2 ^ 20 ∧ 2 ^ 16 - 1 < 2 ^ 16 ∧ 2 ^ 12 - 1 < 2 ^ 12 ∧ 2 ^ 8 - 1 < 2 ^ 8 ∧
      2 ^ 6 - 1 < 2 ^ 6 ∧ 2 ^ 4 - 1 < 2 ^ 4 ∧ 1 < 2) ∧
    ¬(2 ^ 32 < 2 ^ 32 ∨ 2 ^ 20 < 2 ^ 20 ∨ 2 ^ 16 < 2 ^ 16 ∨ 2 ^ 12 < 2 ^ 12 ∨ 2 ^ 8 < 2 ^ 8 ∨ 2 ^ 6 < 2 ^ 6 ∨
      2 ^ 4 < 2 ^ 4 ∨ 2 < 2) := by decide
/-- fmt.itoa: the ends of both ranges that are taken, and a literal just past each bound. -/
theorem witness_Assembler_fmtItoa :
    ((-2 ^ 31 : Int) ≤ -2 ^ 31 ∧ (-2 ^ 31 : Int) < 2 ^ 31) ∧ ((2 ^ 31 - 1 : Int) < 2 ^ 31 ∧ ¬(2 ^ 31 : Int) < 2 ^ 31) ∧
    ((2 ^ 32 - 1 : Int) < 2 ^ 32 ∧ 0xFFFFFFFF < 2 ^ 32) ∧
    ((-2 ^ 31 - 1 : Int) < -2 ^ 31 ∧ (2 ^ 32 : Int) ≤ 2 ^ 32 ∧ 2 ^ 32 ≤ 0x100000000) := by decide

end Sys2Proof.Tests
end

section
/-! SUPPORT. The proofs about STATUS, REFUSED_MARK, RES and the cursor (spec/10_state.md R23 to R25, R32, R33, R39). Each is
read off the next states that `Effect` lists. -/

namespace Sys2Proof.Machine

open Sys2Proof.Spec

variable {s t u : State} {i : Instr}

/-! ## STATUS, REFUSED_MARK and RES -/

/-- The result commands, by the two families of `Effect` that write RES. -/
theorem returnsValue_iff (i : Instr) :
    returnsValue i = true ↔
      i.mnemonic ∈ [.dtEncode, .dtRd8, .dtRdtp, .tmRdstate, .fbRd8, .fbRd16] ∨
      i.mnemonic ∈ [.fmtUtoa, .fmtItoa, .fmtPtoa] := by
  cases i <;> simp [returnsValue, Instr.mnemonic]

theorem returnsValue_eq_false_of_fbStore (h : i.mnemonic ∈ [.fbWr8, .fbWr16]) : returnsValue i = false := by
  cases i <;> simp_all [returnsValue, Instr.mnemonic]

/-- What a command that completes does to STATUS, REFUSED_MARK and RES (R23 to R25). -/
structure Completes (i : Instr) (s t : State) : Prop where
  status : t.status = 0#8
  refusedMark : t.refusedMark = s.refusedMark
  res_isSome : returnsValue i = true → t.res.isSome
  res_eq : returnsValue i = false → t.res = s.res

/-- A result command completes when RES is written last and then STATUS, whatever else its own writes (`u`) did. -/
theorem Completes.of_withRes (hi : returnsValue i = true) (hu : u.refusedMark = s.refusedMark) (v : Quad) :
    Completes i s (u.withRes v).withOk :=
  ⟨rfl, hu, fun _ => rfl, fun h => by simp [hi] at h⟩

/-- Any other command completes when its own writes (`u`) leave REFUSED_MARK and RES. -/
theorem Completes.of_withOk (hi : returnsValue i = false) (hu : u.refusedMark = s.refusedMark) (hr : u.res = s.res) :
    Completes i s u.withOk :=
  ⟨rfl, hu, fun h => by simp [hi] at h, fun _ => hr⟩

theorem Completes.of_putc {ch : Byte} (h : s.typed ch = some u) :
    Completes (.tmPutc ch) s u.scrolledIfOff.synced.withOk := by
  rw [execTmPutc_frame h]
  exact ⟨rfl, rfl, fun h => by simp [returnsValue] at h, fun _ => rfl⟩

/-- A command is refused or completes: there is no third way (R230). -/
theorem Effect.refused_or_completes (h : Effect s i t) : (∃ c, t = s.withRefused c) ∨ Completes i s t := by
  cases h with
  | refused _ c _ => exact .inl ⟨c, rfl⟩
  | answer _ v hi => exact .inr (.of_withRes ((returnsValue_iff i).2 (.inl hi)) rfl v)
  | text _ _ _ v hi _ => exact .inr (.of_withRes ((returnsValue_iff i).2 (.inr hi)) (State.withHbuf_refusedMark s _) v)
  | noText _ v hi => exact .inr (.of_withRes ((returnsValue_iff i).2 (.inr hi)) rfl v)
  | fbStore _ _ _ hi _ => exact .inr (.of_withOk (returnsValue_eq_false_of_fbStore hi) rfl rfl)
  | putc _ _ hu => exact .inr (.of_putc hu)
  | build _ => exact .inr (.of_withOk rfl rfl rfl)
  | install _ _ _ _ => exact .inr (.of_withOk rfl rfl rfl)
  | scroll => exact .inr (.of_withOk rfl rfl rfl)
  | clear => exact .inr (.of_withOk rfl rfl rfl)
  | setcolor _ _ => exact .inr (.of_withOk rfl rfl rfl)

/-- A command word is refused, by the decoder or by its command, or its command completes. -/
theorem runWord_refused_or_completes {w : CommandWord} (h : runWord w s = .next t) :
    (∃ c, t = s.withRefused c) ∨ ∃ i, Completes i s t := by
  obtain ⟨e, _, rfl⟩ | ⟨i, _, hx⟩ := runWord_cases h
  · exact .inl ⟨_, rfl⟩
  · exact (exec_effect hx).refused_or_completes.imp_right fun hc => ⟨i, hc⟩

/-- Settles O13: a refusal sets REFUSED_MARK with a code other than 0, and a completed command keeps it with STATUS 0. -/
theorem markIsStickyAndSetByRefusalsAlone : Obligations.MarkIsStickyAndSetByRefusalsAlone := by
  refine ⟨rfl, fun w s t h => ?_⟩
  obtain ⟨c, rfl⟩ | ⟨i, hc⟩ := runWord_refused_or_completes h
  · simp [causeCode_ne_zero]
  · simp [hc.refusedMark, hc.status]

/-- Settles O50: a refusal leaves RES, and `Completes` says what a completed command does to it. -/
theorem resIsWrittenByCompletedResultCommandsAlone : Obligations.ResIsWrittenByCompletedResultCommandsAlone := by
  refine ⟨rfl, fun i s t h hi hs => ?_, fun i s t h hor => ?_, fun w s t h hs => ?_⟩
  · obtain ⟨c, rfl⟩ | hc := (exec_effect h).refused_or_completes
    · exact absurd hs (causeCode_ne_zero c)
    · exact hc.res_isSome hi
  · obtain ⟨c, rfl⟩ | hc := (exec_effect h).refused_or_completes
    · rfl
    · exact hc.res_eq (hor.resolve_right fun hs => hs hc.status)
  · obtain ⟨c, rfl⟩ | ⟨i, hc⟩ := runWord_refused_or_completes h
    · rfl
    · exact absurd hc.status hs

/-! ## The cursor -/

/-- A character typed on the grid, and the one scroll test after it, leave the cursor on the grid (R144). -/
theorem State.scrolledIfOff_cursorOk_of_typed {ch : Byte} (hs : s.CursorOk) (h : s.typed ch = some u) :
    u.scrolledIfOff.CursorOk := by
  obtain ⟨hrow, hcol, _⟩ := State.typed_cursor hs h
  have hlt : s.row.toNat < 25 := hs.1
  exact State.scrolledIfOff_cursor (by omega) hcol

/-- `sync_cursor()` on the grid brings HWCUR in step with the cursor (R142). -/
theorem synced_withOk_lockstep (h : s.CursorOk) : s.synced.withOk.Lockstep := synced_hwcur s h

/-- tm.putc, tm.scroll and tm.clear move the cursor on the grid, and no other command moves it. -/
theorem Effect.cursorOk (hs : s.CursorOk) (h : Effect s i t) : t.CursorOk := by
  cases h with
  | putc _ _ hu => exact State.scrolledIfOff_cursorOk_of_typed hs hu
  | scroll => exact ⟨by simp, hs.2⟩
  | clear => exact ⟨by simp, by simp⟩
  | refused _ _ _ => exact hs
  | answer _ _ _ => exact hs
  | build _ => exact hs
  | install _ _ _ _ => exact hs
  | setcolor _ _ => exact hs
  | fbStore _ _ _ _ _ => exact hs
  | text _ _ _ _ _ _ => exact hs
  | noText _ _ _ => exact hs

theorem runWord_cursorOk {w : CommandWord} (hs : s.CursorOk) (h : runWord w s = .next t) : t.CursorOk := by
  obtain ⟨_, _, rfl⟩ | ⟨_, _, hx⟩ := runWord_cases h
  · exact hs
  · exact (exec_effect hx).cursorOk hs

theorem step_cursorOk (hs : s.CursorOk) (h : step s = .next t) : t.CursorOk := by
  obtain ⟨_, rfl⟩ | ⟨c, rest, _, hw⟩ := step_cases h
  · exact hs
  · exact runWord_cursorOk (s := s.accept c rest) hs hw

/-- Settles O30: `Effect.cursorOk` keeps the bounds, and tm.putc and tm.clear sync a cursor that is on the grid. -/
theorem cursorStaysOnTheGridAndInLockstep : Obligations.CursorStaysOnTheGridAndInLockstep := by
  refine ⟨by decide, fun s t => step_cursorOk, fun ch s t hs h => ?_, fun s t h => ?_⟩
  · obtain ⟨u, hu, rfl⟩ := execTmPutc_cases h
    exact synced_withOk_lockstep (State.scrolledIfOff_cursorOk_of_typed hs hu)
  · obtain rfl := complete_next.1 h
    exact synced_withOk_lockstep ⟨by simp, by simp⟩

end Sys2Proof.Machine
end

section
/-! SUPPORT. The proofs about the memory spaces (spec/20_memory.md R51, R57): the table that dt.build writes, and commands
that may be run again. -/

namespace Sys2Proof.Machine

open Sys2Proof.Spec

variable {s t : State}

/-! ## The table of dt.build (R51, R110, R112) -/

theorem execDtBuild_of_installed (h : s.installed = true) : execDtBuild s = refuse .installed s := if_pos h

theorem execDtBuild_of_not_installed (h : s.installed = false) :
    execDtBuild s =
      complete (s.withTable (s.tbl.store 0 (tableBytes s.params.gdtInit)) (builtPointer s.params)) :=
  if_neg (Bool.eq_false_iff.1 h)

/-- Byte j of entry k is read at offset 8k + j (R51). -/
theorem load_tableBytes (m : Memory) {g : GdtInit} {k j : Nat} {e : EntryFields} (he : (gdtEntries g)[k]? = some e)
    (hj : j < 8) :
    (m.store 0 (tableBytes g)).load (8 * k + j) = some ((entryWord e).extractLsb' (8 * j) 8) := by
  have hbyte := tableBytes_getElem? g k j e he hj
  have hlt : 8 * k + j < (tableBytes g).length := (List.getElem?_eq_some_iff.1 hbyte).1
  rw [Memory.load_store, if_pos ⟨Nat.zero_le _, by omega⟩, Nat.sub_zero, hbyte]

/-- The table ends at offset 47: storing it leaves what lies past it. -/
theorem load_past_tableBytes (m : Memory) (g : GdtInit) {a : Nat} (ha : 48 ≤ a) :
    (m.store 0 (tableBytes g)).load a = m.load a := by
  rw [Memory.load_store, if_neg (by rw [tableBytes_length, tableLength]; omega)]

/-- Settles O20: a read of TBL after the one store of `tableBytes`, inside it and past it. -/
theorem dtBuildWritesSixEntriesAndThePointer : Obligations.DtBuildWritesSixEntriesAndThePointer := by
  refine ⟨fun s hs => execDtBuild_of_installed hs, fun s hs => ⟨_, execDtBuild_of_not_installed hs, ?_, ?_, rfl⟩⟩
  · exact fun k e he j hj => load_tableBytes s.tbl he hj
  · exact fun a ha => load_past_tableBytes s.tbl s.params.gdtInit ha

/-! ## Commands run again (R57) -/

/-- Run again on the state it left, the command answers that state. -/
def Repeats (f : State → Result) : Prop := ∀ s t, f s = .next t → f t = .next t

/-- A choice that no state decides: both branches repeat. -/
theorem Repeats.ite {p : Prop} [Decidable p] {f g : State → Result} (hf : Repeats f) (hg : Repeats g) :
    Repeats fun s => if p then f s else g s := by
  by_cases hp : p
  · simpa only [if_pos hp] using hf
  · simpa only [if_neg hp] using hg

theorem refuse_repeats (c : Cause) : Repeats (refuse c) := by
  intro s t h
  obtain rfl := refuse_next.1 h
  rfl

/-- A command that completes repeats when its writes, done again after STATUS is written, change nothing more. -/
theorem Repeats.of_complete {g : State → State} (hg : ∀ s, (g (g s).withOk).withOk = (g s).withOk) :
    Repeats fun s => complete (g s) := by
  intro s t h
  obtain rfl := complete_next.1 h
  exact complete_next.2 (hg s).symm

/-! ### Reads -/

/-- RES, STATUS and REFUSED_MARK replaced: all that a read may write (R57). -/
def State.withResult (r : Option Quad) (c : Byte) (m : Bool) (s : State) : State :=
  { s with res := r, status := c, refusedMark := m }

section WithResult

variable (s : State) (r : Option Quad) (c : Byte) (m : Bool)

@[simp] theorem State.withResult_built : (s.withResult r c m).built = s.built := rfl
@[simp] theorem State.withResult_tp : (s.withResult r c m).tp = s.tp := rfl
@[simp] theorem State.withResult_tbl : (s.withResult r c m).tbl = s.tbl := rfl
@[simp] theorem State.withResult_fb : (s.withResult r c m).fb = s.fb := rfl

end WithResult

/-- How a read ends: refused for a cause, or with a value in RES. -/
def conclude : Except Cause Quad → State → Result
  | .error c => refuse c
  | .ok v => answer v

theorem conclude_frame {o : Except Cause Quad} (h : conclude o s = .next t) :
    t = s.withResult t.res t.status (s.refusedMark || decide (t.status ≠ 0)) := by
  cases o with
  | error c =>
    obtain rfl := refuse_next.1 h
    simp [State.withResult, State.withRefused, causeCode_ne_zero]
  | ok v =>
    obtain rfl := answer_next.1 h
    simp [State.withResult, State.withRes, State.withOk, statusOk_eq]

theorem conclude_repeats (o : Except Cause Quad) : Repeats (conclude o) := by
  cases o with
  | error c => exact refuse_repeats c
  | ok v => exact .of_complete fun s => rfl

/-- The command only reads: it concludes, and RES, STATUS and REFUSED_MARK have no say in how. -/
def Reads (f : State → Result) : Prop :=
  ∀ s : State, ∃ o, ∀ r c m, f (s.withResult r c m) = conclude o (s.withResult r c m)

theorem Reads.conclude_eq {f : State → Result} (hf : Reads f) (s : State) :
    ∃ o, f s = conclude o s ∧ ∀ r c m, f (s.withResult r c m) = conclude o (s.withResult r c m) := by
  obtain ⟨o, ho⟩ := hf s
  exact ⟨o, ho s.res s.status s.refusedMark, ho⟩

theorem Reads.frame {f : State → Result} (hf : Reads f) (h : f s = .next t) :
    t = s.withResult t.res t.status (s.refusedMark || decide (t.status ≠ 0)) := by
  obtain ⟨o, hs, _⟩ := hf.conclude_eq s
  exact conclude_frame (hs ▸ h)

theorem Reads.repeats {f : State → Result} (hf : Reads f) : Repeats f := by
  intro s t h
  obtain ⟨o, hs, ho⟩ := hf.conclude_eq s
  have ht : f t = conclude o t := hf.frame h ▸ ho _ _ _
  exact ht.trans (conclude_repeats o s t (hs ▸ h))

theorem execDtRd8_reads (off : BitVec 6) : Reads (execDtRd8 off) := by
  intro s
  simp only [execDtRd8, Bool.not_eq_true', State.withResult_built, State.withResult_tbl]
  split
  · exact ⟨.error .tblRange, fun _ _ _ => rfl⟩
  · split
    · exact ⟨.error .notBuilt, fun _ _ _ => rfl⟩
    · split
      · exact ⟨.error .notBuilt, fun _ _ _ => rfl⟩
      · exact ⟨.ok (zext64 _), fun _ _ _ => rfl⟩

theorem execDtRdtp_reads : Reads execDtRdtp := by
  intro s
  simp only [execDtRdtp, Bool.not_eq_true', State.withResult_built, State.withResult_tp]
  split
  · exact ⟨.error .notBuilt, fun _ _ _ => rfl⟩
  · split
    · exact ⟨.error .notBuilt, fun _ _ _ => rfl⟩
    · exact ⟨.ok (zext64 _), fun _ _ _ => rfl⟩

theorem execTmRdstate_reads : Reads execTmRdstate := fun s => ⟨.ok (termWord s), fun _ _ _ => rfl⟩

theorem execFbRd8_reads (off : BitVec 12) : Reads (execFbRd8 off) := by
  intro s
  simp only [execFbRd8, State.withResult_fb]
  split
  · exact ⟨.error .fbRange, fun _ _ _ => rfl⟩
  · split
    · exact ⟨.error .fbUndefined, fun _ _ _ => rfl⟩
    · exact ⟨.ok (zext64 _), fun _ _ _ => rfl⟩

theorem execFbRd16_reads (off : BitVec 12) : Reads (execFbRd16 off) := by
  intro s
  simp only [execFbRd16, State.withResult_fb]
  split
  · exact ⟨.error .fbRange, fun _ _ _ => rfl⟩
  · split
    · exact ⟨.error .fbAlign, fun _ _ _ => rfl⟩
    · split
      · exact ⟨.ok (zext64 _), fun _ _ _ => rfl⟩
      · exact ⟨.error .fbUndefined, fun _ _ _ => rfl⟩

theorem exec_reads {i : Instr} (hi : isRead i = true) : Reads (exec i) := by
  cases i with
  | dtRd8 off => exact execDtRd8_reads off
  | dtRdtp => exact execDtRdtp_reads
  | tmRdstate => exact execTmRdstate_reads
  | fbRd8 off => exact execFbRd8_reads off
  | fbRd16 off => exact execFbRd16_reads off
  | _ => cases hi

/-! ### Writes of given values -/

theorem storeTable_repeats :
    Repeats fun s =>
      complete (s.withTable (s.tbl.store 0 (tableBytes s.params.gdtInit)) (builtPointer s.params)) :=
  .of_complete fun s => congrArg (fun m => (s.withTable m (builtPointer s.params)).withOk)
    (Memory.store_store s.tbl 0 _ _ rfl)

/-- Neither branch of dt.build changes INSTALLED, which chooses it. -/
theorem execDtBuild_repeats : Repeats execDtBuild := by
  intro s t h
  cases hi : s.installed with
  | true =>
    rw [execDtBuild_of_installed hi] at h
    have ht : t.installed = true := by rw [refuse_next.1 h]; exact hi
    rw [execDtBuild_of_installed ht]
    exact refuse_repeats .installed s t h
  | false =>
    rw [execDtBuild_of_not_installed hi] at h
    have ht : t.installed = false := by rw [complete_next.1 h]; exact hi
    rw [execDtBuild_of_not_installed ht]
    exact storeTable_repeats s t h

/-- The blank cells depend on COLOR alone, which tm.clear leaves (R146). -/
theorem execTmClear_repeats : Repeats execTmClear :=
  .of_complete fun s => congrArg (fun m => ((s.withFb m).withCursor 0 0).synced.withOk)
    (Memory.store_store s.fb 0 _ _ rfl)

theorem execTmSetcolor_repeats (fg bg : BitVec 4) : Repeats (execTmSetcolor fg bg) := .of_complete fun _ => rfl

theorem storeFb_repeats (a : Nat) (bs : List Byte) : Repeats fun s => complete (s.withFb (s.fb.store a bs)) :=
  .of_complete fun s => congrArg (fun m => (s.withFb m).withOk) (Memory.store_store s.fb a bs bs rfl)

theorem execFbWr8_repeats (off : BitVec 12) (data : Byte) : Repeats (execFbWr8 off data) :=
  .ite (refuse_repeats _) (storeFb_repeats _ _)

theorem execFbWr16_repeats (off : BitVec 12) (data : Half) : Repeats (execFbWr16 off data) :=
  .ite (refuse_repeats _) (.ite (refuse_repeats _) (storeFb_repeats _ _))

theorem storeHbuf_repeats (a : Nat) (bs : List Byte) (v : Quad) :
    Repeats fun s => answer v (s.withHbuf (s.hbuf.store a bs)) :=
  .of_complete fun s => congrArg (fun m => ((s.withHbuf m).withRes v).withOk) (Memory.store_store s.hbuf a bs bs rfl)

theorem putText_repeats (text : List Byte) (buf cap : Word) : Repeats (putText text buf cap) :=
  .ite (refuse_repeats _) (.ite (conclude_repeats (.ok 0#64)) (storeHbuf_repeats _ _ _))

theorem execFmtUtoa_repeats (value : Word) (base : Byte) (upper : Bool) (buf cap : Word) :
    Repeats (execFmtUtoa value base upper buf cap) :=
  .ite (refuse_repeats _) (putText_repeats _ buf cap)

theorem exec_write_repeats {i : Instr} (hi : isWrite i = true) : Repeats (exec i) := by
  cases i with
  | dtBuild => exact execDtBuild_repeats
  | tmClear => exact execTmClear_repeats
  | tmSetcolor fg bg => exact execTmSetcolor_repeats fg bg
  | fbWr8 off data => exact execFbWr8_repeats off data
  | fbWr16 off data => exact execFbWr16_repeats off data
  | fmtUtoa value base upper buf cap => exact execFmtUtoa_repeats value base upper buf cap
  | fmtItoa value buf cap => exact putText_repeats (itoaText value) buf cap
  | fmtPtoa value buf cap => exact putText_repeats (ptoaText value) buf cap
  | _ => cases hi

/-- Settles O52: a read concludes the same on a state that only its conclusion changed, and a second store of the same
bytes leaves what the first left. -/
theorem readsHaveNoSideEffectAndWritesRepeat : Obligations.ReadsHaveNoSideEffectAndWritesRepeat :=
  ⟨fun _ s t hi h => ⟨(exec_reads hi).frame h, (exec_reads hi).repeats s t h⟩,
    fun _ s t hi => exec_write_repeats hi s t⟩

end Sys2Proof.Machine
end

section
/-! SUPPORT. The proofs about words that are no command, and the sample words (spec/30_encoding.md R80 to R82, R88, R89).
The opcode byte is the word's low byte, so the rows of R80 and the masks of spec/opcode_table.json name the same words. -/

namespace Sys2Proof

/-! ## The opcode byte -/

/-- The opcode byte as a number (R71). -/
theorem toNat_field_opcode (w : CommandWord) : (field 0 8 w).toNat = w.toNat % 256 := by
  simp [field, BitVec.extractLsb'_toNat]

/-- The mask 0xFF keeps the opcode byte. -/
theorem field_opcode_and_mask (w : CommandWord) : field 0 8 (w &&& 0xFF#128) = field 0 8 w := by
  have hmask : (0xFF#128).extractLsb' 0 8 = BitVec.allOnes 8 := by decide
  rw [field, field, BitVec.extractLsb'_and, hmask, BitVec.and_allOnes]

theorem mnemonicOf_eq_none_iff (op : Byte) : mnemonicOf op = none ↔ ∀ m ∈ allMnemonics, (opcode m).toNat ≠ op.toNat := by
  simp [mnemonicOf, BitVec.toNat_inj]

/-- The rows of R80 leave just the opcodes that R81 lists. -/
theorem no_opcode_eq_iff (op : Nat) :
    (∀ m ∈ allMnemonics, (opcode m).toNat ≠ op) ↔
      op = 0 ∨ (0x06 ≤ op ∧ op ≤ 0x0F) ∨ (0x15 ≤ op ∧ op ≤ 0x17) ∨ (0x1C ≤ op ∧ op ≤ 0x1F) ∨ 0x23 ≤ op := by
  simp [allMnemonics, opcode]
  omega

/-! ## The decoder's two errors -/

theorem decode_eq_badOpcode_iff (w : CommandWord) :
    decode w = .error .badOpcode ↔ mnemonicOf (field 0 8 w) = none := by
  unfold decode
  split
  · simp [*]
  · split <;> simp [*]

theorem decode_eq_reservedBits {w : CommandWord} {m : Mnemonic} (hop : field 0 8 w = opcode m)
    (hres : w &&& reservedMask (formatOf m) ≠ 0#128) : decode w = .error .reservedBits := by
  rw [decode, hop, Laws.EncodeShape.mnemonicOf_opcode]
  exact if_pos hres

end Sys2Proof

namespace Sys2Proof.Machine

open Sys2Proof.Spec

variable {w : CommandWord}

/-! ## The rows of spec/opcode_table.json -/

theorem row_match (m : Mnemonic) : (row m).2 = place 0 (opcode m) := by cases m <;> rfl

theorem row_mask (m : Mnemonic) : (row m).1 = 0xFF#128 ||| reservedMask (formatOf m) := by cases m <;> rfl

theorem field_opcode_of_row {m : Mnemonic} (h : w &&& 0xFF#128 = (row m).2) : field 0 8 w = opcode m := by
  rw [← field_opcode_and_mask, h, row_match, field_place_same 0 (opcode m) (by decide)]

/-- A word that fails only the rest of its row's mask has a reserved bit set. -/
theorem reserved_of_row {m : Mnemonic} (hop : w &&& 0xFF#128 = (row m).2) (hrow : w &&& (row m).1 ≠ (row m).2) :
    w &&& reservedMask (formatOf m) ≠ 0#128 := by
  intro hres
  refine hrow ?_
  rw [row_mask, BitVec.and_or_distrib_left, hop, hres, BitVec.or_zero]

/-! ## Refusal -/

theorem runWord_of_badOpcode (h : decode w = .error .badOpcode) (s : State) : runWord w s = refusedWith 1 s := by
  rw [runWord, h]; rfl

theorem runWord_of_reservedBits (h : decode w = .error .reservedBits) (s : State) : runWord w s = refusedWith 2 s := by
  rw [runWord, h]; rfl

/-- Settles O5: the low byte is the opcode, and the listed bytes are those no row of R80 has. -/
theorem illegalOpcodesAreRefusedAsBadOpcode : Obligations.IllegalOpcodesAreRefusedAsBadOpcode := by
  refine ⟨fun w => ?_, fun w s h => runWord_of_badOpcode h s, by decide⟩
  rw [decode_eq_badOpcode_iff, mnemonicOf_eq_none_iff, toNat_field_opcode]
  exact no_opcode_eq_iff (w.toNat % 256)

/-- Settles O6: the row's match fixes the opcode, so the failed mask is a reserved bit of the row's format. -/
theorem reservedBitsAreRefused : Obligations.ReservedBitsAreRefused := by
  intro m w s hop hrow
  have hdec := decode_eq_reservedBits (field_opcode_of_row hop) (reserved_of_row hop hrow)
  exact runWord_of_reservedBits hdec s

/-- Settles O7: the table of R89 is finite, so each of its rows is evaluated. -/
theorem sampleWordsOfTheEncodingTable : Obligations.SampleWordsOfTheEncodingTable :=
  ⟨by decide, by decide⟩

end Sys2Proof.Machine
end

section
/-! SUPPORT. The proofs about the descriptor encoder (spec/40_descriptor_encoder.md R100, R106 to R108, R116): the fields of
an entry and of a selector, and the table once it is installed. -/

namespace Sys2Proof

/-- A run of bits read inside a run of bits. -/
theorem extractLsb'_of_extractLsb' {w lo n : Nat} (x : BitVec w) {k m : Nat} (h : k + m ≤ n) :
    (x.extractLsb' lo n).extractLsb' k m = x.extractLsb' (lo + k) m := by
  refine BitVec.eq_of_getLsbD_eq fun i hi => ?_
  simp [hi, Nat.add_assoc, show k + i < n by omega]

/-- Two equal runs agree on every run inside them. -/
theorem extractLsb'_eq_of_run_eq {v w lo lo' n : Nat} {x : BitVec v} {y : BitVec w}
    (hxy : x.extractLsb' lo n = y.extractLsb' lo' n) (k m : Nat) (h : k + m ≤ n) :
    x.extractLsb' (lo + k) m = y.extractLsb' (lo' + k) m := by
  rw [← extractLsb'_of_extractLsb' x h, ← extractLsb'_of_extractLsb' y h, hxy]

/-- The eight little-endian bytes, written out (R52). -/
theorem leBytes_eight (d : Quad) :
    leBytes 8 d = [d.extractLsb' 0 8, d.extractLsb' 8 8, d.extractLsb' 16 8, d.extractLsb' 24 8, d.extractLsb' 32 8,
      d.extractLsb' 40 8, d.extractLsb' 48 8, d.extractLsb' 56 8] := rfl

end Sys2Proof

namespace Sys2Proof.Machine

/-! ## The fields of an entry (R103) -/

variable (base : Word) (limit : BitVec 20) (access : Byte) (flags : BitVec 4)

/-- The six runs of bits that R103 joins, each read back from the entry. -/
theorem encodeEntry_runs :
    (encodeEntry base limit access flags).extractLsb' 0 16 = limit.extractLsb' 0 16 ∧
    (encodeEntry base limit access flags).extractLsb' 16 24 = base.extractLsb' 0 24 ∧
    (encodeEntry base limit access flags).extractLsb' 40 8 = access ∧
    (encodeEntry base limit access flags).extractLsb' 48 4 = limit.extractLsb' 16 4 ∧
    (encodeEntry base limit access flags).extractLsb' 52 4 = flags ∧
    (encodeEntry base limit access flags).extractLsb' 56 8 = base.extractLsb' 24 8 := by
  simp (disch := decide) only [encodeEntry, BitVec.extractLsb'_append_eq_of_le, BitVec.extractLsb'_append_eq_right,
    BitVec.extractLsb'_eq_self, Nat.reduceSub, and_self]

/-- The inverse recovers the operands (R106). -/
theorem decodeEntry_encodeEntry : decodeEntry (encodeEntry base limit access flags) = ⟨base, limit, access, flags⟩ := by
  obtain ⟨hlimitLow, hbaseLow, haccess, hlimitHigh, hflags, hbaseHigh⟩ := encodeEntry_runs base limit access flags
  rw [decodeEntry, hlimitLow, hbaseLow, haccess, hlimitHigh, hflags, hbaseHigh, BitVec.extractLsb'_append_extractLsb',
    BitVec.extractLsb'_append_extractLsb']

/-- Every 64-bit value is the entry of what the inverse gives (R106). -/
theorem entryWord_decodeEntry (d : Quad) : entryWord (decodeEntry d) = d := by
  have hruns : entryWord (decodeEntry d) = d.extractLsb' 56 8 ++ d.extractLsb' 52 4 ++ d.extractLsb' 48 4 ++
      d.extractLsb' 40 8 ++ d.extractLsb' 16 24 ++ d.extractLsb' 0 16 := by
    simp only [entryWord, decodeEntry, encodeEntry, BitVec.extractLsb'_append_eq_left,
      BitVec.extractLsb'_append_eq_right]
  rw [hruns]
  iterate 5 rw [BitVec.extractLsb'_append_extractLsb'_eq_extractLsb' (by decide)]
  exact BitVec.extractLsb'_eq_self

/-- The bytes of the entry's format table, the lowest first (R100). -/
theorem leBytes_encodeEntry :
    leBytes 8 (encodeEntry base limit access flags) =
      [limit.extractLsb' 0 8, limit.extractLsb' 8 8, base.extractLsb' 0 8, base.extractLsb' 8 8, base.extractLsb' 16 8,
        access, flags ++ limit.extractLsb' 16 4, base.extractLsb' 24 8] := by
  obtain ⟨hlimitLow, hbaseLow, haccess, hlimitHigh, hflags, hbaseHigh⟩ := encodeEntry_runs base limit access flags
  generalize encodeEntry base limit access flags = d at *
  have hbyte6 : d.extractLsb' 48 8 = flags ++ limit.extractLsb' 16 4 := by
    rw [← hflags, ← hlimitHigh, BitVec.extractLsb'_append_extractLsb'_eq_extractLsb' (by decide)]
  rw [leBytes_eight, hbyte6, haccess, hbaseHigh,
    extractLsb'_eq_of_run_eq hlimitLow 0 8 (by decide), extractLsb'_eq_of_run_eq hlimitLow 8 8 (by decide),
    extractLsb'_eq_of_run_eq hbaseLow 0 8 (by decide), extractLsb'_eq_of_run_eq hbaseLow 8 8 (by decide),
    extractLsb'_eq_of_run_eq hbaseLow 16 8 (by decide)]

/-- Settles O16: dt.encode answers the entry word in RES, and each byte of it lies in the runs that R103 joins. -/
theorem encodedEntryBytePositions : Obligations.EncodedEntryBytePositions :=
  fun base limit access flags _ => ⟨_, rfl, leBytes_encodeEntry base limit access flags⟩

/-- Settles O18: `decodeEntry` is a left and a right inverse of the packing. -/
theorem encodeIsABijectionWithItsInverse : Obligations.EncodeIsABijectionWithItsInverse := by
  refine ⟨fun base limit access flags => ?_, entryWord_decodeEntry⟩
  have hinv := decodeEntry_encodeEntry base limit access flags
  simp only [decodeEntry, EntryFields.mk.injEq] at hinv
  obtain ⟨hbase, hlimit, haccess, hflags⟩ := hinv
  exact ⟨hbase.symm, hlimit.symm, haccess.symm, hflags.symm⟩

/-! ## Selectors (R107, R108) -/

theorem selector_toNat (index : BitVec 13) (rpl : BitVec 2) :
    (selector index rpl).toNat = index.toNat * 8 + rpl.toNat := by
  have hhigh : (index ++ 0#1).toNat = index.toNat * 2 := by
    rw [BitVec.toNat_append, Nat.shiftLeft_eq]; exact Nat.or_zero _
  rw [selector, BitVec.toNat_append, hhigh, ← Nat.shiftLeft_add_eq_or_of_lt rpl.isLt, Nat.shiftLeft_eq]
  omega

/-- Settles O19: each part of a selector is read back from where R107 joins it. -/
theorem selectorsAreIndexTimesEightPlusRpl : Obligations.SelectorsAreIndexTimesEightPlusRpl := by
  refine ⟨fun index rpl => ⟨selector_toNat index rpl, ?_, ?_, ?_⟩, by decide⟩
  · exact BitVec.extractLsb'_append_eq_right
  · rw [selector, BitVec.getLsbD_append, if_neg (by decide), BitVec.getLsbD_append, if_pos (by decide)]
    rfl
  · rw [selector, BitVec.extractLsb'_append_eq_of_le (by decide)]
    exact BitVec.extractLsb'_append_eq_left

/-! ## The installed table (R116) -/

/-- TBL, TP and the request log of `s` stand in `t`, and `t` is installed (R27, R116). -/
structure KeepsInstall (s t : State) : Prop where
  tbl : t.tbl = s.tbl
  tp : t.tp = s.tp
  cpuEvents : t.cpuEvents = s.cpuEvents
  installed : t.installed = true

variable {s t u : State} {i : Instr}

theorem KeepsInstall.refl (hs : s.installed = true) : KeepsInstall s s := ⟨rfl, rfl, rfl, hs⟩

theorem KeepsInstall.trans (hst : KeepsInstall s t) (htu : KeepsInstall t u) : KeepsInstall s u :=
  ⟨htu.tbl.trans hst.tbl, htu.tp.trans hst.tp, htu.cpuEvents.trans hst.cpuEvents, htu.installed⟩

/-- Only dt.build and dt.install write these fields, and neither completes once INSTALLED is 1; tm.putc moves its cursor
by more than one update, so its frame is cited. -/
theorem Effect.keepsInstall (hs : s.installed = true) (h : Effect s i t) : KeepsInstall s t := by
  cases h with
  | build hi => rw [hs] at hi; contradiction
  | install _ _ hi _ => rw [hs] at hi; contradiction
  | putc _ _ hu => rw [execTmPutc_frame hu]; exact ⟨rfl, rfl, rfl, hs⟩
  | _ => exact ⟨rfl, rfl, rfl, hs⟩

theorem runWord_keepsInstall {w : CommandWord} (hs : s.installed = true) (h : runWord w s = .next t) :
    KeepsInstall s t := by
  obtain ⟨_, _, rfl⟩ | ⟨_, _, hx⟩ := runWord_cases h
  · exact ⟨rfl, rfl, rfl, hs⟩
  · exact (exec_effect hx).keepsInstall hs

theorem step_keepsInstall (hs : s.installed = true) (h : step s = .next t) : KeepsInstall s t := by
  obtain ⟨_, rfl⟩ | ⟨c, rest, _, hw⟩ := step_cases h
  · exact .refl hs
  · obtain ⟨htbl, htp, hev, hi⟩ := runWord_keepsInstall (s := s.accept c rest) hs hw
    exact ⟨htbl, htp, hev, hi⟩

/-- The first step of a run that ends in a next state. -/
theorem run_succ_next {n : Nat} :
    Sys2Proof.core.run (n + 1) s = .next t ↔ ∃ u, step s = .next u ∧ Sys2Proof.core.run n u = .next t := by
  cases hstep : step s <;> simp [Host.Core.run, core, hstep]

/-- What every step keeps, every run keeps. -/
theorem run_induction {P : State → Prop} (hstep : ∀ s t, P s → step s = .next t → P t) (n : Nat) (hs : P s)
    (h : Sys2Proof.core.run n s = .next t) : P t := by
  induction n generalizing s with
  | zero => cases h; exact hs
  | succ n ih =>
    obtain ⟨u, hu, hrun⟩ := run_succ_next.1 h
    exact ih (hstep s u hs hu) hrun

/-- Settles O26: every step from an installed state keeps the table, so by `run_induction` every run does. -/
theorem installedTableNeverChanges : Obligations.InstalledTableNeverChanges := by
  intro n s t hs h
  obtain ⟨htbl, htp, hev, hi⟩ := run_induction (P := KeepsInstall s)
    (fun _ _ hsu hstep => hsu.trans (step_keepsInstall hsu.installed hstep)) n (.refl hs) h
  exact ⟨htbl, htp, hev, hi⟩

end Sys2Proof.Machine
end

section
/-! SUPPORT. The proofs about the TERM's moves of the cursor (spec/41_terminal.md R150, R153, R154): the one scroll of a
tm.putc, a repeated tm.clear, and a run of drawn characters that reaches no scroll. -/

namespace Sys2Proof.Machine

open Sys2Proof.Spec

variable {s t : State}

/-! ## The one scroll (R150) -/

/-- Settles O31: `State.typed_cursor` bounds the move and names FB before the one scroll test, which scrolls at row 25
alone. -/
theorem putcScrollsAtMostOnceAfterTheMove : Obligations.PutcScrollsAtMostOnceAfterTheMove := by
  intro ch s t hs h
  obtain ⟨u, hu, rfl⟩ := execTmPutc_cases h
  obtain ⟨hrow, -, hhome, hfb, hcolor⟩ := State.typed_cursor hs hu
  have hs25 : s.row.toNat < 25 := hs.1
  by_cases h25 : u.row.toNat = 25
  · have h24 : s.row.toNat = 24 := by omega
    rw [State.scrolledIfOff_of_eq (BitVec.eq_of_toNat_eq h25)]
    exact ⟨by simp [h24], u.fb, hfb, .inr ⟨h24, rfl, hhome h25, by simp [hcolor]⟩⟩
  · rw [State.scrolledIfOff_of_ne h25]
    exact ⟨hrow, u.fb, hfb, .inl rfl⟩

/-! ## tm.clear again (R153) -/

/-- Settles O36: tm.clear always completes, and its second store is of the cells that its first left there. -/
theorem clearIsIdempotent : Obligations.ClearIsIdempotent :=
  fun s => ⟨_, rfl, execTmClear_repeats s _ rfl⟩

/-! ## Drawn characters above the last cell (R154) -/

/-- The cursor's linear index, which `sync_cursor()` gives HWCUR (R142) and at twice which its cell stands in FB (R53). -/
def State.index (s : State) : Nat := 80 * s.row.toNat + s.col.toNat

theorem cellOffset_eq_index (s : State) : cellOffset s.row.toNat s.col.toNat = 2 * s.index := rfl

/-- On the grid the index fixes the cursor. -/
theorem State.cursor_of_index {r : BitVec 5} {c : BitVec 7} (hs : s.CursorOk) (hc : c.toNat < 80)
    (h : s.index = 80 * r.toNat + c.toNat) : s.row = r ∧ s.col = c := by
  obtain ⟨-, hcol⟩ := hs
  unfold State.index at h
  exact ⟨BitVec.eq_of_toNat_eq (by omega), BitVec.eq_of_toNat_eq (by omega)⟩

@[simp] theorem State.advanced_fb (s : State) : s.advanced.fb = s.fb := by rw [State.advanced_eq]; rfl
@[simp] theorem State.advanced_color (s : State) : s.advanced.color = s.color := by rw [State.advanced_eq]; rfl

theorem State.scrolledIfOff_of_cursorOk (hs : s.CursorOk) : s.scrolledIfOff = s :=
  State.scrolledIfOff_of_ne (Nat.ne_of_lt hs.1)

/-- The cursor of `t` is on the grid, `n` cells past that of `s`, and COLOR is as in `s`. -/
structure MovesOn (n : Nat) (s t : State) : Prop where
  cursorOk : t.CursorOk
  index : t.index = s.index + n
  color : t.color = s.color

/-- Above the last cell one column on, wrapped or not, is one cell on. -/
theorem State.advanced_movesOn (hs : s.CursorOk) (hi : s.index < 1999) : MovesOn 1 s s.advanced := by
  suffices h : s.advanced.CursorOk ∧ s.advanced.index = s.index + 1 from ⟨h.1, h.2, State.advanced_color s⟩
  obtain ⟨-, hcol⟩ := hs
  unfold State.index at hi
  obtain h79 | hlt : s.col.toNat = 79 ∨ s.col.toNat < 79 := by omega
  · rw [State.advanced_of_last h79]
    simp [State.index, State.CursorOk]
    omega
  · rw [State.advanced_of_lt hlt]
    simp [State.index, State.CursorOk]
    omega

/-- A drawn character above the last cell is written at the cursor, which moves on one cell, and nothing scrolls (R144). -/
theorem execTmPutc_movesOn {ch : Byte} (hch : drawn ch) (hs : s.CursorOk) (hi : s.index < 1999) :
    ∃ t, exec (.tmPutc ch) s = .next t ∧ MovesOn 1 s t ∧
      t.fb = putCell s.row.toNat s.col.toNat ch s.color s.fb := by
  rw [exec, execTmPutc_drawn hch.1 hch.2 hs]
  obtain ⟨hok, hindex, hcolor⟩ :=
    State.advanced_movesOn (s := s.withFb (putCell s.row.toNat s.col.toNat ch s.color s.fb)) hs hi
  rw [State.scrolledIfOff_of_cursorOk hok]
  exact ⟨_, rfl, ⟨hok, hindex, hcolor⟩, by simp⟩

theorem execAll_cons {i : Instr} (is : List Instr) (h : exec i s = .next t) : execAll (i :: is) s = execAll is t := by
  rw [execAll, h]

/-- Drawn characters that bring the cursor to the last cell at most stand in FB one cell after another from where it was,
and the cells before them are as they were. -/
theorem execAll_tmPutc_movesOn {cs : List Byte} (hcs : ∀ x ∈ cs, drawn x) (hs : s.CursorOk)
    (hi : s.index + cs.length < 2000) :
    ∃ t, execAll (cs.map .tmPutc) s = .next t ∧ MovesOn cs.length s t ∧
      (∀ a, a < 2 * s.index → t.fb.load a = s.fb.load a) ∧
      (∀ k, k < cs.length → t.fb.load (2 * (s.index + k)) = cs[k]?) := by
  induction cs generalizing s with
  | nil => exact ⟨s, rfl, ⟨hs, rfl, rfl⟩, fun _ _ => rfl, fun k hk => absurd hk (Nat.not_lt_zero k)⟩
  | cons ch cs ih =>
    obtain ⟨hch, hcs⟩ := List.forall_mem_cons.1 hcs
    rw [List.length_cons] at hi
    obtain ⟨u, hu, ⟨hok, hindex, hcolor⟩, hfb⟩ := execTmPutc_movesOn hch hs (by omega)
    obtain ⟨t, ht, ⟨htok, htindex, htcolor⟩, hbefore, hcells⟩ := ih hcs hok (by omega)
    have hload := load_putCell s.row.toNat s.col.toNat ch s.color s.fb
    rw [← hfb, cellOffset_eq_index] at hload
    rw [List.map_cons, execAll_cons _ hu, List.length_cons]
    refine ⟨t, ht, ⟨htok, by omega, htcolor.trans hcolor⟩, fun a ha => ?_, fun k hk => ?_⟩
    · rw [hbefore a (by omega), hload, if_neg (by omega), if_neg (by omega)]
    · cases k with
      | zero => rw [hbefore _ (by omega), hload]; simp
      | succ k => rw [show s.index + (k + 1) = u.index + k by omega, hcells k (by omega), List.getElem?_cons_succ]

/-- tm.clear homes the cursor and leaves COLOR (R146). -/
theorem exec_tmClear_home (s : State) :
    ∃ t, exec .tmClear s = .next t ∧ t.CursorOk ∧ t.index = 0 ∧ t.color = s.color :=
  ⟨_, rfl, ⟨by simp, by simp⟩, by simp [State.index], rfl⟩

/-- Settles O39: from the home cursor 80 drawn characters move on to index 80, which is (1, 0), and the 81st to index 81. -/
theorem wrapComesBeforeScroll : Obligations.WrapComesBeforeScroll := by
  intro s cs c hlen hcs hc
  obtain ⟨h, hclear, hok, hhome, hcolor⟩ := exec_tmClear_home s
  obtain ⟨t, ht, ⟨htok, htindex, htcolor⟩, -, hcells⟩ := execAll_tmPutc_movesOn hcs hok (by omega)
  rw [hhome, hlen, Nat.zero_add] at htindex
  obtain ⟨hrow, hcol⟩ : t.row = 1 ∧ t.col = 0 := State.cursor_of_index htok (by decide) htindex
  obtain ⟨u, hu, ⟨huok, huindex, -⟩, hfb⟩ := execTmPutc_movesOn hc htok (by omega)
  rw [htindex] at huindex
  have hload := load_putCell t.row.toNat t.col.toNat c t.color t.fb
  rw [← hfb, cellOffset_eq_index, htindex, htcolor, hcolor] at hload
  refine ⟨t, u, (execAll_cons _ hclear).trans ht, hrow, hcol, fun k hk => ?_, hu, hload 160, hload 161,
    State.cursor_of_index huok (by decide) huindex⟩
  rw [← hcells k (by omega), hhome, Nat.zero_add]

end Sys2Proof.Machine
end

section
/-! SUPPORT. The proofs about the FMT (spec/43_format_encoder.md R200 to R209): the texts as digits of the value, and the
buffer contract the three commands share. -/

namespace Sys2Proof.Machine

open Sys2Proof.Spec

variable {s : State}

/-! ## The digit alphabet (R201) -/

theorem digit_toNat {d : Nat} (hd : d < 16) (upper : Bool) :
    (digit d upper).toNat = if d < 10 then 0x30 + d else (if upper then 0x41 else 0x61) + d - 10 := by
  unfold digit
  split
  · rw [BitVec.toNat_ofNat]; omega
  · cases upper <;> simp <;> omega

/-- Settles O43: the alphabet's one equation, in each case of the letters. -/
theorem digitAlphabet : Obligations.DigitAlphabet :=
  fun d => ⟨digit_toNat d.isLt false, digit_toNat d.isLt true⟩

/-! ## The text of an unsigned value (R202) -/

/-- With turns enough for the value, the loop of R202 gives the digits of the value's expansion, lowest order first. -/
theorem digitsLow_eq_map_digits {base fuel v : Nat} (upper : Bool) (hb : 1 < base) (hv : v < base ^ fuel) :
    digitsLow base upper fuel v = (base.digits v).map (digit · upper) := by
  induction fuel generalizing v with
  | zero =>
    obtain rfl : v = 0 := Nat.lt_one_iff.1 hv
    simp [digitsLow]
  | succ fuel ih =>
    by_cases h0 : v = 0
    · simp [digitsLow, h0]
    · have hdiv : v / base < base ^ fuel := Nat.div_lt_of_lt_mul (by rwa [← Nat.pow_succ'])
      rw [digitsLow, if_neg h0, ih hdiv, Nat.digits_eq_cons_digits_div hb h0, List.map_cons]

/-- The digits a text shows: those of the value's expansion, most significant first, and a single 0 for 0. -/
def textDigits (base v : Nat) : List Nat := if v = 0 then [0] else (base.digits v).reverse

section TextDigits

variable {base v : Nat}

theorem textDigits_zero : textDigits base 0 = [0] := rfl

theorem textDigits_of_ne_zero (h : v ≠ 0) : textDigits base v = (base.digits v).reverse := if_neg h

/-- The 32 turns of the model's loop are enough for every 32-bit value in every base from 2 on. -/
theorem utoaText_eq_map_textDigits (upper : Bool) (hb : 1 < base) (hv : v < 2 ^ 32) :
    utoaText v base upper = (textDigits base v).map (digit · upper) := by
  unfold utoaText
  split
  · subst v; rfl
  · have hpow : v < base ^ 32 := hv.trans_le (Nat.pow_le_pow_left hb 32)
    rw [digitsLow_eq_map_digits upper hb hpow, textDigits_of_ne_zero ‹_›, List.map_reverse]

theorem lt_base_of_mem_textDigits (hb : 1 < base) {d : Nat} (hd : d ∈ textDigits base v) : d < base := by
  by_cases h0 : v = 0
  · subst v
    obtain rfl : d = 0 := List.mem_singleton.1 hd
    omega
  · rw [textDigits_of_ne_zero h0, List.mem_reverse] at hd
    exact Nat.digits_lt_base hb hd

theorem foldl_textDigits : (textDigits base v).foldl (fun acc d => acc * base + d) 0 = v := by
  by_cases h0 : v = 0
  · subst v; simp [textDigits_zero]
  · have hvalue := Nat.ofDigits_digits base v
    rw [Nat.ofDigits_eq_foldr] at hvalue
    rw [textDigits_of_ne_zero h0, List.foldl_reverse]
    simpa [Nat.add_comm, Nat.mul_comm] using hvalue

theorem textDigits_length_pos : 1 ≤ (textDigits base v).length := by
  by_cases h0 : v = 0
  · subst v; exact Nat.le_refl 1
  · rw [textDigits_of_ne_zero h0, List.length_reverse]
    exact List.length_pos_of_ne_nil (Nat.digits_ne_nil_iff_ne_zero.2 h0)

theorem textDigits_length_le (hb : 1 < base) {k : Nat} (hk : 1 ≤ k) (hv : v < base ^ k) :
    (textDigits base v).length ≤ k := by
  by_cases h0 : v = 0
  · subst v; exact hk
  · rw [textDigits_of_ne_zero h0, List.length_reverse]
    exact (Nat.digits_length_le_iff hb v).2 hv

/-- The leading digit of an expansion is not 0, so a text that starts with 0 is that of 0. -/
theorem textDigits_eq_of_head? (h : (textDigits base v).head? = some 0) : textDigits base v = [0] := by
  by_cases h0 : v = 0
  · subst v; rfl
  · rw [textDigits_of_ne_zero h0, List.head?_reverse,
      List.getLast?_eq_some_getLast (Nat.digits_ne_nil_iff_ne_zero.2 h0), Option.some_inj] at h
    exact absurd h (Nat.getLast_digit_ne_zero base h0)

end TextDigits

/-- Settles O44: `textDigits` are the digits the text shows, and 2^32 is 16^8 and at most 10^10. -/
theorem utoaTextIsTheValuesDigits : Obligations.UtoaTextIsTheValuesDigits := by
  intro v base upper hbase
  have hv : v.toNat < 2 ^ 32 := v.isLt
  have hb : 1 < base := by omega
  refine ⟨textDigits base v.toNat, utoaText_eq_map_textDigits upper hb hv, fun d => lt_base_of_mem_textDigits hb,
    foldl_textDigits, textDigits_length_pos, ?_, textDigits_eq_of_head?⟩
  obtain rfl | rfl := hbase
  · exact textDigits_length_le hb (k := 10) (by decide) (by omega)
  · exact textDigits_length_le hb (k := 8) (by decide) hv

/-! ## The text of a signed value (R204) -/

theorem s32_of_lt {v : Word} (h : v.toNat < 2 ^ 31) : s32 v = v.toNat := by
  rw [s32, BitVec.toInt_eq_toNat_cond, if_pos (by omega)]

theorem s32_of_ge {v : Word} (h : ¬v.toNat < 2 ^ 31) : s32 v = v.toNat - 2 ^ 32 := by
  rw [s32, BitVec.toInt_eq_toNat_cond, if_neg (by omega)]
  rfl

/-- R204's literal is the text that its general branch would give for -2^31 on unbounded integers. -/
theorem minText_eq : minText = 0x2D#8 :: utoaText (2 ^ 32 - 2 ^ 31) 10 false := by decide

theorem itoaText_of_lt {v : Word} (h : v.toNat < 2 ^ 31) : itoaText v = utoaText v.toNat 10 false := by
  rw [itoaText, s32_of_lt h, if_neg (by omega), if_neg (by omega), Int.toNat_natCast]

theorem itoaText_of_ge {v : Word} (h : ¬v.toNat < 2 ^ 31) : itoaText v = 0x2D#8 :: utoaText (2 ^ 32 - v.toNat) 10 false := by
  have hv : v.toNat < 2 ^ 32 := v.isLt
  rw [itoaText, s32_of_ge h]
  by_cases hmin : v.toNat = 2 ^ 31
  · rw [hmin, if_pos (by decide), minText_eq]
  · have hmag : (-((v.toNat : Int) - 2 ^ 32) : Int).toNat = 2 ^ 32 - v.toNat := by omega
    rw [if_neg (by omega), if_pos (by omega), hmag]

theorem utoaText_ten_length {n : Nat} (hn : n < 2 ^ 32) :
    1 ≤ (utoaText n 10 false).length ∧ (utoaText n 10 false).length ≤ 10 := by
  rw [utoaText_eq_map_textDigits false (by decide) hn, List.length_map]
  exact ⟨textDigits_length_pos, textDigits_length_le (by decide) (by decide) (by omega)⟩

theorem itoaText_length (v : Word) : 1 ≤ (itoaText v).length ∧ (itoaText v).length ≤ 11 := by
  have hv : v.toNat < 2 ^ 32 := v.isLt
  by_cases h : v.toNat < 2 ^ 31
  · rw [itoaText_of_lt h]
    have := utoaText_ten_length hv
    omega
  · rw [itoaText_of_ge h, List.length_cons]
    have := utoaText_ten_length (n := 2 ^ 32 - v.toNat) (by omega)
    omega

/-- Settles O45: the sign is bit 31, and -2^31 falls under the general branch by `minText_eq`. -/
theorem itoaTextIsSignAndMagnitude : Obligations.ItoaTextIsSignAndMagnitude := by
  refine ⟨fun v => ?_, itoaText_length, by decide⟩
  split
  · exact itoaText_of_lt ‹_›
  · exact itoaText_of_ge ‹_›

/-! ## The text of a pointer (R206) -/

/-- The nibble at bit 4j is the digit of 16^j. -/
theorem nibble_toNat (v : Word) (j : Nat) : (v.extractLsb' (4 * j) 4).toNat = v.toNat / 16 ^ j % 16 := by
  rw [BitVec.extractLsb'_toNat, Nat.shiftRight_eq_div_pow, Nat.pow_mul]

theorem ptoaText_eq (v : Word) :
    ptoaText v = 0x30#8 :: 0x78#8 :: (List.range 8).map fun k => digit (v.toNat / 16 ^ (7 - k) % 16) false := by
  have hbits : [28, 24, 20, 16, 12, 8, 4, 0] = (List.range 8).map fun k => 4 * (7 - k) := by decide
  simp only [ptoaText, hbits, List.map_map, Function.comp_def, nibble_toNat, List.cons_append, List.nil_append]

/-- Settles O46: place 2 + k is place k of the eight digits after "0x". -/
theorem ptoaTextIsEightHexDigits : Obligations.PtoaTextIsEightHexDigits := by
  intro v
  rw [ptoaText_eq]
  refine ⟨by simp, rfl, rfl, fun k hk => ?_⟩
  rw [Nat.add_comm 2 k, List.getElem?_cons_succ, List.getElem?_cons_succ, List.getElem?_map,
    List.getElem?_range hk, Option.map_some]

/-! ## The buffer contract (R200, R208) -/

theorem putText_of_pos {text : List Byte} {buf cap : Word} (h0 : 0 < cap.toNat) (hw : buf.toNat + cap.toNat ≤ 2 ^ 32) :
    putText text buf cap s =
      answer (BitVec.ofNat 64 (fitLength text cap)) (s.withHbuf (s.hbuf.store buf.toNat (fitBytes text cap))) := by
  have hcap : cap ≠ 0#32 := by rintro rfl; exact absurd h0 (by decide)
  have hwraps : ¬bufWraps buf cap = true := by rw [bufWraps, decide_eq_true_eq]; omega
  rw [putText, if_neg hwraps, if_neg hcap]

theorem fitBytes_length (text : List Byte) (cap : Word) : (fitBytes text cap).length = fitLength text cap + 1 := by
  simp [fitBytes, fitLength]

theorem fitBytes_getElem?_of_lt {text : List Byte} {cap : Word} {k : Nat} (hk : k < fitLength text cap) :
    (fitBytes text cap)[k]? = text[k]? := by
  have hle : fitLength text cap ≤ text.length := Nat.min_le_left _ _
  rw [fitBytes, List.getElem?_append_left (by rw [List.length_take]; omega), List.getElem?_take_of_lt hk]

theorem fitBytes_getElem?_end (text : List Byte) (cap : Word) : (fitBytes text cap)[fitLength text cap]? = some 0#8 := by
  have hlen : (text.take (fitLength text cap)).length = fitLength text cap := List.length_take_of_le (Nat.min_le_left _ _)
  rw [fitBytes, List.getElem?_append_right hlen.le, hlen, Nat.sub_self, List.getElem?_cons_zero]

/-- A command that is `putText` of its text meets R208: one store of what fits and the terminator, which ends before
buf + cap. -/
theorem writesText_of_putText {i : Instr} {text : List Byte} {buf cap : Word} (hi : exec i s = putText text buf cap s)
    (h0 : 0 < cap.toNat) (hw : buf.toNat + cap.toNat ≤ 2 ^ 32) : WritesText i text buf cap s := by
  have hfit : fitLength text cap < cap.toNat := by unfold fitLength; omega
  have hload := Memory.load_store s.hbuf buf.toNat (bs := fitBytes text cap)
  rw [fitBytes_length] at hload
  refine ⟨_, fitLength text cap, hi.trans (putText_of_pos h0 hw), rfl, fun k hk => ?_, ?_, fun a ha => ?_, by omega, rfl⟩
  · exact (hload _).trans (by rw [if_pos (by omega), Nat.add_sub_cancel_left, fitBytes_getElem?_of_lt hk])
  · exact (hload _).trans (by rw [if_pos (by omega), Nat.add_sub_cancel_left, fitBytes_getElem?_end]; rfl)
  · exact (hload _).trans (if_neg (by omega))

theorem execFmtUtoa_of_base {value buf cap : Word} {base : Byte} {upper : Bool} (h : base = 10 ∨ base = 16) :
    execFmtUtoa value base upper buf cap s = putText (utoaText value.toNat base.toNat upper) buf cap s :=
  if_neg fun hne => h.elim hne.1 hne.2

/-- Settles O47: each of the three commands is `putText` of its own text. -/
theorem fmtCommandsWriteThePrefixAndTerminator : Obligations.FmtCommandsWriteThePrefixAndTerminator :=
  ⟨fun _ _ _ _ _ _ hbase => writesText_of_putText (execFmtUtoa_of_base hbase),
    fun _ _ _ _ => writesText_of_putText rfl, fun _ _ _ _ => writesText_of_putText rfl⟩

/-! ## Independence of the state (R209) -/

/-- The command's status, its RES when it completes and the bytes it writes to HBUF are the same from every state, and it
writes nothing else but REFUSED_MARK, which a refusal sets. -/
def StateFree (f : State → Result) : Prop :=
  ∃ (status : Byte) (res : Quad) (written : Nat → Option Byte), ∀ s, ∃ t, f s = .next t ∧
    t.status = status ∧ t.res = (if status = 0 then some res else s.res) ∧
    (∀ a, t.hbuf.load a = (written a).or (s.hbuf.load a)) ∧
    t = { s with hbuf := t.hbuf, res := t.res, status := status, refusedMark := s.refusedMark || decide (status ≠ 0) }

/-- A choice that no state decides: both branches are free of the state. -/
theorem StateFree.ite {p : Prop} [Decidable p] {f g : State → Result} (hf : StateFree f) (hg : StateFree g) :
    StateFree fun s => if p then f s else g s := by
  by_cases hp : p
  · simpa only [if_pos hp] using hf
  · simpa only [if_neg hp] using hg

theorem refuse_stateFree (c : Cause) : StateFree (refuse c) := by
  have hc : causeCode c ≠ 0#8 := causeCode_ne_zero c
  refine ⟨causeCode c, 0, fun _ => none, fun s => ⟨_, rfl, rfl, (if_neg hc).symm, fun a => ?_, ?_⟩⟩
  · simp
  · simp [State.withRefused, hc]

theorem answer_stateFree (v : Quad) : StateFree (answer v) := by
  refine ⟨0, v, fun _ => none, fun s => ⟨_, rfl, rfl, rfl, fun a => ?_, ?_⟩⟩
  · simp
  · simp [State.withRes, State.withOk, statusOk_eq]

/-- What a read gives after a store, as the store's own cells before what stood there. -/
theorem Memory.load_store_eq_or (m : Memory) (a x : Nat) (bs : List Byte) :
    (m.store a bs).load x = ((cellsFrom a bs).load x).or (m.load x) := by
  rw [Memory.load_store, load_cellsFrom]
  by_cases ha : a ≤ x
  · by_cases hx : x < a + bs.length
    · rw [if_pos ⟨ha, hx⟩, if_pos ha, List.getElem?_eq_getElem (by omega), Option.some_or]
    · rw [if_neg (by omega), if_pos ha, List.getElem?_eq_none (by omega), Option.none_or]
  · rw [if_neg (by omega), if_neg ha, Option.none_or]

/-- The bytes of a store are those of its own cells, whatever stood there before. -/
theorem storeHbuf_stateFree (v : Quad) (a : Nat) (bs : List Byte) :
    StateFree fun s => answer v (s.withHbuf (s.hbuf.store a bs)) := by
  refine ⟨0, v, (cellsFrom a bs).load, fun s => ⟨_, rfl, rfl, rfl, fun x => ?_, ?_⟩⟩
  · simp [Memory.load_store_eq_or]
  · simp [State.withHbuf, State.withRes, State.withOk, statusOk_eq]

theorem putText_stateFree (text : List Byte) (buf cap : Word) : StateFree (putText text buf cap) :=
  .ite (refuse_stateFree _) (.ite (answer_stateFree _) (storeHbuf_stateFree _ _ _))

theorem execFmtUtoa_stateFree (value : Word) (base : Byte) (upper : Bool) (buf cap : Word) :
    StateFree (execFmtUtoa value base upper buf cap) :=
  .ite (refuse_stateFree _) (putText_stateFree _ buf cap)

/-- Settles O49: every test of an FMT command is of its operands, and every branch is free of the state. -/
theorem fmtDependsOnItsOperandsAlone : Obligations.FmtDependsOnItsOperandsAlone := by
  intro i hi
  cases i with
  | fmtUtoa value base upper buf cap => exact execFmtUtoa_stateFree value base upper buf cap
  | fmtItoa value buf cap => exact putText_stateFree (itoaText value) buf cap
  | fmtPtoa value buf cap => exact putText_stateFree (ptoaText value) buf cap
  | _ => cases hi

end Sys2Proof.Machine
end

section
/-! SUPPORT. The proof about refusals (spec/60_exceptions.md R233). -/

namespace Sys2Proof.Machine

/-- Settles O12: a word is refused, with its cause's code, or its command completes, and a completed command leaves
STATUS 0. -/
theorem refusedCommandsWriteStatusAndMarkOnly : Obligations.RefusedCommandsWriteStatusAndMarkOnly := by
  intro w s t h hs
  obtain ⟨c, rfl⟩ | ⟨i, hc⟩ := runWord_refused_or_completes h
  · exact ⟨rfl, causeCode_le c⟩
  · exact absurd hc.status hs

end Sys2Proof.Machine
end

section
/-! SUPPORT. The proofs about reset and the order of the requests to the CPU (spec/70_reset_and_hazards.md R250, R258). -/

namespace Sys2Proof.Machine

variable {s : State}

/-! ## The requests of dt.install (R115, R258) -/

/-- Two requests stand in the log in the order they were made. -/
theorem State.emit_emit (s : State) (e f : CpuEvent) :
    (s.emit e).emit f = { s with cpuEvents := s.cpuEvents ++ [e, f] } :=
  congrArg (fun log => { s with cpuEvents := log }) (List.append_assoc s.cpuEvents [e] [f])

/-- None of dt.install's causes of refusal applies. -/
theorem execDtInstall_of_ready {tp : BitVec 48} (hbuilt : s.built = true) (hinst : s.installed = false)
    (hif : s.cpuIf = false) (htp : s.tp = some tp) :
    execDtInstall s = complete (((s.emit (.loadTable (tpSize tp) (tpBase tp))).emit
      (.reloadSelectors kernelCodeSelector kernelDataSelector)).withInstalled) := by
  simp [execDtInstall, hbuilt, hinst, hif, htp]

/-- Settles O25: no cause of refusal applies, and the two requests are appended in the order they are emitted. -/
theorem dtInstallRecordsLoadThenReload : Obligations.DtInstallRecordsLoadThenReload := by
  intro s p hbuilt hinst hif htp
  obtain ⟨-, hcode, hdata, -⟩ := selectorsAreIndexTimesEightPlusRpl
  rw [exec, execDtInstall_of_ready hbuilt hinst hif htp, State.emit_emit, hcode, hdata]
  rfl

/-! ## Reset (R250) -/

/-- Settles O53: each field of `State.reset` is R250's, and a space with no cells has no value at any offset. -/
theorem resetValues : Obligations.ResetValues :=
  ⟨rfl, rfl, rfl, rfl, rfl, rfl, fun _ => rfl, rfl, rfl, rfl, rfl, rfl, fun _ => rfl⟩

end Sys2Proof.Machine
end

section
/-! SUPPORT. The proofs about the encoding (spec/30_encoding.md R70 to R88): the decoder said once by the opcode and the
reserved bits, and the encoder as the operands' numbers, each at its bits. -/

namespace Sys2Proof

variable {w : CommandWord} {m : Mnemonic} {i : Instr}

/-! ## The rows of R80 -/

theorem mnemonicOf_eq_some_iff {op : Byte} : mnemonicOf op = some m ↔ op = opcode m := by
  refine ⟨fun h => ?_, fun h => h ▸ Laws.EncodeShape.mnemonicOf_opcode m⟩
  exact (beq_iff_eq.1 (List.find?_some (p := fun m => opcode m == op) h)).symm

theorem mnemonicOf_eq_none_iff_forall_ne {op : Byte} : mnemonicOf op = none ↔ ∀ m, op ≠ opcode m := by
  rw [Option.eq_none_iff_forall_ne_some]
  exact forall_congr' fun m => not_congr mnemonicOf_eq_some_iff

theorem operands_mnemonic (m : Mnemonic) (w : CommandWord) : (operands m w).mnemonic = m := by cases m <;> rfl

theorem encodeShape (i : Instr) : Laws.EncodeShape.Statement i := by
  cases i with
  | dtEncode base limit access flags => exact Laws.EncodeShape.dtEncode base limit access flags
  | dtBuild => exact Laws.EncodeShape.dtBuild
  | dtInstall => exact Laws.EncodeShape.dtInstall
  | dtRd8 off => exact Laws.EncodeShape.dtRd8 off
  | dtRdtp => exact Laws.EncodeShape.dtRdtp
  | tmPutc ch => exact Laws.EncodeShape.tmPutc ch
  | tmScroll => exact Laws.EncodeShape.tmScroll
  | tmClear => exact Laws.EncodeShape.tmClear
  | tmSetcolor fg bg => exact Laws.EncodeShape.tmSetcolor fg bg
  | tmRdstate => exact Laws.EncodeShape.tmRdstate
  | fbRd8 off => exact Laws.EncodeShape.fbRd8 off
  | fbWr8 off data => exact Laws.EncodeShape.fbWr8 off data
  | fbRd16 off => exact Laws.EncodeShape.fbRd16 off
  | fbWr16 off data => exact Laws.EncodeShape.fbWr16 off data
  | fmtUtoa value base upper buf cap => exact Laws.EncodeShape.fmtUtoa value base upper buf cap
  | fmtItoa value buf cap => exact Laws.EncodeShape.fmtItoa value buf cap
  | fmtPtoa value buf cap => exact Laws.EncodeShape.fmtPtoa value buf cap

/-! ## The decoder by opcode and reserved bits (R88) -/

theorem decode_of_opcode (hop : field 0 8 w = opcode m) :
    decode w = if w &&& reservedMask (formatOf m) ≠ 0#128 then .error .reservedBits else .ok (operands m w) := by
  rw [decode, hop, Laws.EncodeShape.mnemonicOf_opcode]

/-- The opcode is no row's, or it is a row's. -/
theorem badOpcode_or_opcode (w : CommandWord) : decode w = .error .badOpcode ∨ ∃ m, field 0 8 w = opcode m := by
  cases hm : mnemonicOf (field 0 8 w) with
  | none => exact .inl ((decode_eq_badOpcode_iff w).2 hm)
  | some m => exact .inr ⟨m, mnemonicOf_eq_some_iff.1 hm⟩

theorem decode_eq_ok_iff : decode w = .ok i ↔
    ∃ m, field 0 8 w = opcode m ∧ w &&& reservedMask (formatOf m) = 0#128 ∧ operands m w = i := by
  constructor
  · intro h
    obtain hbad | ⟨m, hop⟩ := badOpcode_or_opcode w
    · rw [h] at hbad; cases hbad
    · rw [decode_of_opcode hop] at h
      split at h
      · cases h
      · exact ⟨m, hop, not_not.1 ‹_›, Except.ok.inj h⟩
  · rintro ⟨m, hop, hres, rfl⟩
    rw [decode_of_opcode hop, if_neg (not_not.2 hres)]

theorem decode_eq_reservedBits_iff : decode w = .error .reservedBits ↔
    ∃ m, field 0 8 w = opcode m ∧ w &&& reservedMask (formatOf m) ≠ 0#128 := by
  constructor
  · intro h
    obtain hbad | ⟨m, hop⟩ := badOpcode_or_opcode w
    · rw [h] at hbad; cases hbad
    · rw [decode_of_opcode hop] at h
      split at h
      · exact ⟨m, hop, ‹_›⟩
      · cases h
  · rintro ⟨m, hop, hres⟩
    exact decode_eq_reservedBits hop hres

/-! ## Decoding what was encoded -/

/-- The flag `upper` is read back from its one bit. -/
theorem ofBool_beq_one_eq (b : Bool) : (BitVec.ofBool b == 1#1) = b := by cases b <;> rfl

/-- Every operand is read from where the encoder placed it, and no other operand or the opcode reaches there. -/
theorem operands_encode (i : Instr) : operands i.mnemonic (encode i) = i := by
  cases i <;>
    simp (disch := decide) [encode, operands, Instr.mnemonic, field_or, field_place_same, field_place_apart,
      ofBool_beq_one_eq]

theorem decode_encode (i : Instr) : decode (encode i) = .ok i := by
  obtain ⟨-, hop, hres⟩ := encodeShape i
  exact decode_eq_ok_iff.2 ⟨i.mnemonic, mnemonicOf_eq_some_iff.1 hop, hres, operands_encode i⟩

/-- Settles O1: the fields of an encoded word are the operands, and the word's 16 bytes are the number of the word. -/
theorem encodedCommandDecodesToItself : Obligations.EncodedCommandDecodesToItself := by
  refine fun i => ⟨decode_encode i, ?_⟩
  rw [decodeBytes, encodeBytes, if_pos (leBytes_length 16 _), leBytes_leValue_word, decode_encode]
  rfl

/-! ## Encoding what was decoded -/

theorem place_field (lo n : Nat) (w : CommandWord) : place lo (field lo n w) = w &&& ones lo n := by
  refine BitVec.eq_of_getLsbD_eq fun j hj => ?_
  simp only [ones, BitVec.getLsbD_and, getLsbD_place, getLsbD_field, BitVec.getLsbD_allOnes]
  by_cases h : lo ≤ j
  · simp [h, hj, Bool.and_comm]
  · simp [h]

theorem ofBool_beq_one (b : BitVec 1) : BitVec.ofBool (b == 1#1) = b := by revert b; decide

/-- The encoder puts back every bit of a row's word but the reserved ones. -/
theorem encode_operands (hop : field 0 8 w = opcode m) :
    encode (operands m w) = w &&& ~~~reservedMask (formatOf m) := by
  have hopcode : place 0 (opcode (operands m w).mnemonic) = w &&& ones 0 8 := by
    rw [operands_mnemonic, ← hop, place_field]
  unfold encode
  rw [hopcode]
  cases m <;>
    simp only [operands, place_field, ofBool_beq_one, BitVec.or_zero, ← BitVec.and_or_distrib_left] <;>
    exact congrArg (w &&& ·) (by decide)

theorem and_not_of_and_eq_zero {r : CommandWord} (h : w &&& r = 0#128) : w &&& ~~~r = w := by
  calc w &&& ~~~r = (w &&& ~~~r) ||| (w &&& r) := by rw [h, BitVec.or_zero]
    _ = w &&& (~~~r ||| r) := BitVec.and_or_distrib_left.symm
    _ = w := by rw [BitVec.or_comm, BitVec.or_not_self, BitVec.and_allOnes]

/-- Settles O2: the encoder restores the bits that the row's format does not reserve, and the reserved ones are 0. -/
theorem decodedWordEncodesToItself : Obligations.DecodedWordEncodesToItself := by
  intro w i h
  obtain ⟨m, hop, hres, rfl⟩ := decode_eq_ok_iff.1 h
  rw [encode_operands hop, and_not_of_and_eq_zero hres]

end Sys2Proof

namespace Sys2Proof.Machine

open Sys2Proof.Spec

variable {w : CommandWord} {m : Mnemonic} {i : Instr}

/-! ## The rows of spec/opcode_table.json (R88) -/

/-- What a row's test fixes, it fixes on every part of the mask. -/
theorem and_eq_of_and_mask_eq {a b c : CommandWord} (h : w &&& b = c) (hab : b &&& a = a) : w &&& a = c &&& a := by
  rw [← h, BitVec.and_assoc, hab]

theorem row_mask_and_opcodeMask (m : Mnemonic) : (row m).1 &&& 0xFF#128 = 0xFF#128 := by cases m <;> decide

theorem row_mask_and_reservedMask (m : Mnemonic) :
    (row m).1 &&& reservedMask (formatOf m) = reservedMask (formatOf m) := by cases m <;> decide

theorem row_match_and_opcodeMask (m : Mnemonic) : (row m).2 &&& 0xFF#128 = (row m).2 := by cases m <;> decide

theorem row_match_and_reservedMask (m : Mnemonic) : (row m).2 &&& reservedMask (formatOf m) = 0#128 := by
  cases m <;> decide

theorem and_opcodeMask_eq_match_iff : w &&& 0xFF#128 = (row m).2 ↔ field 0 8 w = opcode m := by
  refine ⟨field_opcode_of_row, fun hop => ?_⟩
  rw [row_match, ← hop, place_field]
  rfl

/-- A row's test holds of a word just when its opcode is the row's and no reserved bit is set. -/
theorem and_mask_eq_match_iff :
    w &&& (row m).1 = (row m).2 ↔ field 0 8 w = opcode m ∧ w &&& reservedMask (formatOf m) = 0#128 := by
  rw [← and_opcodeMask_eq_match_iff]
  refine ⟨fun h => ⟨?_, ?_⟩, fun ⟨hop, hres⟩ => ?_⟩
  · rw [and_eq_of_and_mask_eq h (row_mask_and_opcodeMask m), row_match_and_opcodeMask]
  · rw [and_eq_of_and_mask_eq h (row_mask_and_reservedMask m), row_match_and_reservedMask]
  · rw [row_mask, BitVec.and_or_distrib_left, hop, hres, BitVec.or_zero]

/-- Settles O3: the decoder's outcomes by opcode and reserved bits, each said by the row's mask and match. -/
theorem wordIsItsRowsCommandExactlyWhenMasked : Obligations.WordIsItsRowsCommandExactlyWhenMasked := by
  refine ⟨fun w m => ?_, fun w => ?_, fun w => ?_⟩
  · rw [and_mask_eq_match_iff]
    constructor
    · rintro ⟨i, hi, rfl⟩
      obtain ⟨m, hop, hres, rfl⟩ := decode_eq_ok_iff.1 hi
      rw [operands_mnemonic]
      exact ⟨hop, hres⟩
    · rintro ⟨hop, hres⟩
      exact ⟨operands m w, decode_eq_ok_iff.2 ⟨m, hop, hres, rfl⟩, operands_mnemonic m w⟩
  · rw [decode_eq_badOpcode_iff, mnemonicOf_eq_none_iff_forall_ne]
    exact forall_congr' fun m => not_congr and_opcodeMask_eq_match_iff.symm
  · rw [decode_eq_reservedBits_iff]
    refine exists_congr fun m => ?_
    rw [and_opcodeMask_eq_match_iff]
    refine and_congr_right fun hop => not_congr ?_
    rw [and_mask_eq_match_iff, and_iff_right hop]

/-! ## The fields as numbers (R72 to R79, R87) -/

theorem place_eq_ofNat {n : Nat} (lo : Nat) (v : BitVec n) : place lo v = BitVec.ofNat 128 (v.toNat * 2 ^ lo) := by
  refine BitVec.eq_of_toNat_eq ?_
  simp [place, Nat.shiftLeft_eq, Nat.mod_mul_mod]

/-- A field placed above a number that ends below it adds its own number there. -/
theorem wordOf_or_place {n : Nat} (a lo : Nat) (v : BitVec n) (ha : a < 2 ^ lo) :
    wordOf a ||| place lo v = wordOf (a + v.toNat * 2 ^ lo) := by
  rw [place_eq_ofNat, wordOf, wordOf, ← BitVec.ofNat_or, Nat.or_comm, ← Nat.shiftLeft_eq,
    ← Nat.shiftLeft_add_eq_or_of_lt ha, Nat.add_comm]

/-- The number of a command's word: the opcode and each operand, unscaled, at the low bit of its field. -/
def wordNumber : Instr → Nat
  | .dtEncode base limit access flags =>
      0x01 + base.toNat * 2 ^ 8 + limit.toNat * 2 ^ 40 + access.toNat * 2 ^ 60 + flags.toNat * 2 ^ 68
  | .dtBuild => 0x02
  | .dtInstall => 0x03
  | .dtRd8 off => 0x04 + off.toNat * 2 ^ 8
  | .dtRdtp => 0x05
  | .tmPutc ch => 0x10 + ch.toNat * 2 ^ 8
  | .tmScroll => 0x11
  | .tmClear => 0x12
  | .tmSetcolor fg bg => 0x13 + fg.toNat * 2 ^ 8 + bg.toNat * 2 ^ 12
  | .tmRdstate => 0x14
  | .fbRd8 off => 0x18 + off.toNat * 2 ^ 8
  | .fbWr8 off data => 0x19 + off.toNat * 2 ^ 8 + data.toNat * 2 ^ 20
  | .fbRd16 off => 0x1A + off.toNat * 2 ^ 8
  | .fbWr16 off data => 0x1B + off.toNat * 2 ^ 8 + data.toNat * 2 ^ 20
  | .fmtUtoa value base upper buf cap =>
      0x20 + value.toNat * 2 ^ 8 + base.toNat * 2 ^ 40 + upper.toNat * 2 ^ 48 + buf.toNat * 2 ^ 64 + cap.toNat * 2 ^ 96
  | .fmtItoa value buf cap => 0x21 + value.toNat * 2 ^ 8 + buf.toNat * 2 ^ 64 + cap.toNat * 2 ^ 96
  | .fmtPtoa value buf cap => 0x22 + value.toNat * 2 ^ 8 + buf.toNat * 2 ^ 64 + cap.toNat * 2 ^ 96

/-- The fields stand one above another from bit 8 up, so the encoder's OR of them is the sum of their numbers. -/
theorem wordOf_wordNumber (i : Instr) : wordOf (wordNumber i) = encode i := by
  cases i with
  | fmtUtoa value base upper buf cap =>
    rw [wordNumber, ← BitVec.toNat_ofBool]
    simp (disch := omega) only [← wordOf_or_place]
    simp only [encode, ← BitVec.or_assoc]
    rfl
  | _ =>
    simp (disch := omega) only [wordNumber, ← wordOf_or_place]
    simp only [encode, ← BitVec.or_assoc]
    rfl

theorem decode_wordNumber (i : Instr) : decode (wordOf (wordNumber i)) = .ok i := by
  rw [wordOf_wordNumber, decode_encode]

/-- Settles O4: each number is its command's `wordNumber`. -/
theorem fieldsSitAtTheirBits : Obligations.FieldsSitAtTheirBits :=
  ⟨fun base limit access flags => decode_wordNumber (.dtEncode base limit access flags),
    decode_wordNumber .dtBuild, decode_wordNumber .dtInstall, decode_wordNumber .dtRdtp, decode_wordNumber .tmScroll,
    decode_wordNumber .tmClear, decode_wordNumber .tmRdstate, fun off => decode_wordNumber (.dtRd8 off),
    fun ch => decode_wordNumber (.tmPutc ch), fun fg bg => decode_wordNumber (.tmSetcolor fg bg),
    fun off => decode_wordNumber (.fbRd8 off), fun off data => decode_wordNumber (.fbWr8 off data),
    fun off => decode_wordNumber (.fbRd16 off), fun off data => decode_wordNumber (.fbWr16 off data),
    fun value base upper buf cap => decode_wordNumber (.fmtUtoa value base upper buf cap),
    fun value buf cap => decode_wordNumber (.fmtItoa value buf cap),
    fun value buf cap => decode_wordNumber (.fmtPtoa value buf cap)⟩

end Sys2Proof.Machine
end

section
/-! SUPPORT. The proofs about the invariant and about every run (spec/10_state.md R22, R26 to R39, R50; spec/60_exceptions.md
R230): who writes what, read off the next states that `Effect` lists, and that every command answers one. -/

namespace Sys2Proof.Machine

open Sys2Proof.Spec

variable {s t u : State} {i : Instr}

/-! ## The frames of exec -/

/-- No effect touches the commands to come, the input or the parameters (R22, R38, R253). -/
theorem Effect.keepsInputs (h : Effect s i t) : t.pending = s.pending ∧ t.cpuIf = s.cpuIf ∧ t.params = s.params := by
  cases h with
  | putc _ _ hu => rw [execTmPutc_frame hu]; exact ⟨rfl, rfl, rfl⟩
  | _ => exact ⟨rfl, rfl, rfl⟩

/-- Settles O11: `Effect.keepsInputs` of the effect that exec has. -/
theorem commandsLeaveStreamInputAndParameters : Obligations.CommandsLeaveStreamInputAndParameters :=
  fun _ _ _ h => (exec_effect h).keepsInputs

/-- Only dt.build writes TBL, TP and BUILT (R26 to R29). -/
theorem Effect.keepsTable (h : Effect s i t) (hi : i ≠ .dtBuild) : t.tbl = s.tbl ∧ t.tp = s.tp ∧ t.built = s.built := by
  cases h with
  | build _ => exact absurd rfl hi
  | putc _ _ hu => rw [execTmPutc_frame hu]; exact ⟨rfl, rfl, rfl⟩
  | _ => exact ⟨rfl, rfl, rfl⟩

/-- Only dt.install writes INSTALLED and CPU_EVENTS (R27, R31). -/
theorem Effect.keepsInstalled (h : Effect s i t) (hi : i ≠ .dtInstall) :
    t.installed = s.installed ∧ t.cpuEvents = s.cpuEvents := by
  cases h with
  | install _ _ _ _ => exact absurd rfl hi
  | putc _ _ hu => rw [execTmPutc_frame hu]; exact ⟨rfl, rfl⟩
  | _ => exact ⟨rfl, rfl⟩

/-- Only tm.setcolor writes COLOR (R34). -/
theorem Effect.keepsColor (h : Effect s i t) (hi : i.mnemonic ≠ .tmSetcolor) : t.color = s.color := by
  cases h with
  | setcolor _ _ => exact absurd rfl hi
  | putc _ _ hu => rw [execTmPutc_frame hu]
  | _ => rfl

/-- Only tm.putc and tm.clear write HWCUR and COL, and they and tm.scroll ROW (R32, R33, R35). -/
theorem Effect.keepsCursor (h : Effect s i t) (hputc : i.mnemonic ≠ .tmPutc) (hclear : i ≠ .tmClear) :
    t.hwcur = s.hwcur ∧ t.col = s.col ∧ (i ≠ .tmScroll → t.row = s.row) := by
  cases h with
  | putc _ _ _ => exact absurd rfl hputc
  | clear => exact absurd rfl hclear
  | scroll => exact ⟨rfl, rfl, fun h => absurd rfl h⟩
  | _ => exact ⟨rfl, rfl, fun _ => rfl⟩

theorem writesFb_of_fbStore (h : i.mnemonic ∈ [.fbWr8, .fbWr16]) : writesFb i = true := by
  simp at h
  rcases h with h | h <;> simp [writesFb, h]

theorem isFmt_of_text (h : i.mnemonic ∈ [.fmtUtoa, .fmtItoa, .fmtPtoa]) : isFmt i = true := by
  simp at h
  rcases h with h | h | h <;> simp [isFmt, h]

/-- Only the five FB writers write FB (R50). -/
theorem Effect.keepsFb (h : Effect s i t) (hi : writesFb i = false) : t.fb = s.fb := by
  cases h with
  | putc _ _ _ => cases hi
  | scroll => cases hi
  | clear => cases hi
  | fbStore _ _ _ hm _ => rw [writesFb_of_fbStore hm] at hi; cases hi
  | _ => rfl

/-- Only the FMT commands write HBUF (R50). -/
theorem Effect.keepsHbuf (h : Effect s i t) (hi : isFmt i = false) : t.hbuf = s.hbuf := by
  cases h with
  | text _ _ _ _ hm _ => rw [isFmt_of_text hm] at hi; cases hi
  | putc _ _ hu => rw [execTmPutc_frame hu]
  | _ => rfl

/-- Settles O51: the frame of each register and space, one lemma for each, over the effects. -/
theorem eachStateHasItsWriters : Obligations.EachStateHasItsWriters := by
  intro i s t h
  have heff := exec_effect h
  exact ⟨heff.keepsTable, heff.keepsInstalled, heff.keepsColor, heff.keepsCursor, heff.keepsFb, heff.keepsHbuf⟩

/-! ## The invariant, part by part -/

theorem State.typed_memoriesOk {ch : Byte} (hs : s.MemoriesOk) (hc : s.CursorOk) (h : s.typed ch = some u) :
    u.fb.wf ∧ u.fb.below fbLength := by
  obtain ⟨-, -, hwf, hbelow, -, -⟩ := hs
  obtain ⟨-, -, -, hfb | hfb, -⟩ := State.typed_cursor hc h
  · rw [hfb]; exact ⟨hwf, hbelow⟩
  · rw [hfb]; exact ⟨wf_putCell _ _ _ _ hwf, below_putCell _ _ hbelow hc.1 hc.2⟩

theorem State.scrolledIfOff_fbOk (hwf : u.fb.wf) (hbelow : u.fb.below fbLength) :
    u.scrolledIfOff.fb.wf ∧ u.scrolledIfOff.fb.below fbLength := by
  unfold State.scrolledIfOff
  split
  · exact ⟨wf_scrollFb _ hwf, below_scrollFb _ hbelow⟩
  · exact ⟨hwf, hbelow⟩

theorem Effect.memoriesOk (hs : s.MemoriesOk) (hc : s.CursorOk) (h : Effect s i t) : t.MemoriesOk := by
  have ⟨htbl, htblN, hfb, hfbN, hhbuf, hhbufN⟩ := hs
  cases h with
  | build _ =>
    exact ⟨Memory.wf_store _ _ htbl, Memory.below_store htblN (by rw [tableBytes_length]; decide), hfb, hfbN, hhbuf, hhbufN⟩
  | putc _ _ hu =>
    rw [execTmPutc_frame hu]
    obtain ⟨hwf, hbelow⟩ := State.typed_memoriesOk hs hc hu
    obtain ⟨hwf, hbelow⟩ := State.scrolledIfOff_fbOk hwf hbelow
    exact ⟨htbl, htblN, hwf, hbelow, hhbuf, hhbufN⟩
  | scroll => exact ⟨htbl, htblN, wf_scrollFb _ hfb, below_scrollFb _ hfbN, hhbuf, hhbufN⟩
  | clear =>
    exact ⟨htbl, htblN, Memory.wf_store _ _ hfb, Memory.below_store hfbN (by rw [blankCells_length]; decide), hhbuf, hhbufN⟩
  | fbStore _ _ _ _ hb => exact ⟨htbl, htblN, Memory.wf_store _ _ hfb, Memory.below_store hfbN hb, hhbuf, hhbufN⟩
  | text _ _ _ _ _ hb => exact ⟨htbl, htblN, hfb, hfbN, Memory.wf_store _ _ hhbuf, Memory.below_store hhbufN hb⟩
  | _ => exact hs

theorem store_nil (a : Nat) (bs : List Byte) : Memory.store [] a bs = cellsFrom a bs := by
  simp [Memory.store, Memory.under, Memory.from]

/-- dt.build leaves the table's own cells, whether TBL was empty or built before (R112). -/
theorem store_tableBytes_of_tableOk (hs : s.TableOk) :
    s.tbl.store 0 (tableBytes s.params.gdtInit) = cellsFrom 0 (tableBytes s.params.gdtInit) := by
  unfold State.TableOk at hs
  split at hs
  · rw [hs.1, ← store_nil, Memory.store_store _ _ _ _ rfl]
  · rw [hs.1, store_nil]

theorem Effect.tableOk (hs : s.TableOk) (h : Effect s i t) : t.TableOk := by
  cases h with
  | build _ => exact ⟨store_tableBytes_of_tableOk hs, rfl⟩
  | putc _ _ hu => rw [execTmPutc_frame hu]; exact hs
  | _ => exact hs

theorem State.InstallOk.cpuEvents_eq_nil (hs : s.InstallOk) (hi : s.installed = false) : s.cpuEvents = [] := by
  unfold State.InstallOk at hs
  rwa [hi] at hs

theorem State.TableOk.tp_eq (hs : s.TableOk) (hb : s.built = true) : s.tp = some (builtPointer s.params) := by
  unfold State.TableOk at hs
  rw [hb] at hs
  exact hs.2

/-- dt.install logs the pointer that dt.build left, and after it no effect writes the log (R110, R115, R116). -/
theorem Effect.installOk (htable : s.TableOk) (hs : s.InstallOk) (h : Effect s i t) : t.InstallOk := by
  cases h with
  | build hi =>
    have hnil := hs.cpuEvents_eq_nil hi
    unfold State.InstallOk
    rw [State.withOk_installed, State.withTable_installed, hi]
    exact hnil
  | install tp hb hi ht =>
    have htp : tp = builtPointer s.params := Option.some.inj (ht.symm.trans (htable.tp_eq hb))
    refine ⟨hb, ?_⟩
    simp only [State.withOk_cpuEvents, State.withInstalled_cpuEvents, State.emit_cpuEvents, hs.cpuEvents_eq_nil hi, htp,
      builtPointer, tpSize_tablePointer, tpBase_tablePointer]
    rfl
  | putc _ _ hu => rw [execTmPutc_frame hu]; exact hs
  | _ => exact hs

theorem withRefused_statusOk (c : Cause) : (s.withRefused c).StatusOk := ⟨causeCode_le c, fun _ => rfl⟩

theorem Effect.statusOk (h : Effect s i t) : t.StatusOk := by
  obtain ⟨c, rfl⟩ | hc := h.refused_or_completes
  · exact withRefused_statusOk c
  · exact ⟨by simp [hc.status], fun hne => absurd hc.status hne⟩

/-! ## The invariant -/

/-- A refusal writes STATUS and REFUSED_MARK alone (R233). -/
theorem State.Inv.withRefused (hs : s.Inv) (c : Cause) : (s.withRefused c).Inv :=
  { hs with status := withRefused_statusOk c }

theorem Effect.inv (hs : s.Inv) (h : Effect s i t) : t.Inv where
  memories := h.memoriesOk hs.memories hs.cursor
  cursor := h.cursorOk hs.cursor
  table := h.tableOk hs.table
  install := h.installOk hs.table hs.install
  status := h.statusOk

theorem runWord_inv {w : CommandWord} (hs : s.Inv) (h : runWord w s = .next t) : t.Inv := by
  obtain ⟨e, -, rfl⟩ | ⟨i, -, hx⟩ := runWord_cases h
  · exact hs.withRefused (decodeCause e)
  · exact (exec_effect hx).inv hs

/-- The invariant says nothing of the model's own fields. -/
theorem State.Inv.accept (hs : s.Inv) (c : Command) (rest : List Command) : (s.accept c rest).Inv :=
  ⟨hs.memories, hs.cursor, hs.table, hs.install, hs.status⟩

theorem step_inv (hs : s.Inv) (h : step s = .next t) : t.Inv := by
  obtain ⟨-, rfl⟩ | ⟨c, rest, -, hw⟩ := step_cases h
  · exact hs
  · exact runWord_inv (hs.accept c rest) hw

/-- Settles O55: a step is idle, a refusal or an effect, and each keeps every part of the invariant. -/
theorem stepKeepsTheInvariant : Obligations.StepKeepsTheInvariant := fun _ _ => step_inv

/-- Settles O54: at reset the spaces and the log are empty, the cursor is home and STATUS is 0. -/
theorem resetHasTheInvariant : Obligations.ResetHasTheInvariant where
  memories := by decide
  cursor := by decide
  table := ⟨rfl, rfl⟩
  install := rfl
  status := by decide

/-! ## Every command answers (R230) -/

/-- The command ends in a next state: it neither faults nor is left without a meaning. -/
def Answers (r : Result) : Prop := ∃ t, r = .next t

theorem complete_answers (s : State) : Answers (complete s) := ⟨_, rfl⟩

theorem refuse_answers (c : Cause) (s : State) : Answers (refuse c s) := ⟨_, rfl⟩

theorem Answers.ite {p : Prop} [Decidable p] {a b : Result} (ha : Answers a) (hb : Answers b) :
    Answers (if p then a else b) := by
  split
  · exact ha
  · exact hb

theorem execDtInstall_answers (s : State) : Answers (execDtInstall s) := by
  refine .ite (refuse_answers _ _) (.ite (refuse_answers _ _) (.ite (refuse_answers _ _) ?_))
  split
  · exact refuse_answers _ _
  · exact complete_answers _

/-- A read that neither faults nor is left without a meaning: it concludes. -/
theorem Reads.answers {f : State → Result} (hf : Reads f) (s : State) : Answers (f s) := by
  obtain ⟨o, ho, -⟩ := hf.conclude_eq s
  rw [ho]
  cases o with
  | error c => exact refuse_answers c s
  | ok v => exact complete_answers _

/-- On the grid put_cell has a meaning, so tm.putc has one (R140, R144). -/
theorem execTmPutc_answers (ch : Byte) (hs : s.CursorOk) : Answers (execTmPutc ch s) := by
  by_cases hnl : ch = 0x0A#8
  · rw [hnl, execTmPutc_newline]; exact complete_answers _
  · by_cases hcr : ch = 0x0D#8
    · rw [hcr, execTmPutc_return]; exact complete_answers _
    · rw [execTmPutc_drawn hnl hcr hs]; exact complete_answers _

theorem putText_answers (text : List Byte) (buf cap : Word) (s : State) : Answers (putText text buf cap s) :=
  .ite (refuse_answers _ _) (.ite (complete_answers _) (complete_answers _))

theorem exec_answers (i : Instr) (hs : s.CursorOk) : Answers (exec i s) := by
  cases i with
  | dtEncode base limit access flags => exact complete_answers _
  | dtBuild => exact .ite (refuse_answers _ _) (complete_answers _)
  | dtInstall => exact execDtInstall_answers s
  | dtRd8 off => exact (execDtRd8_reads off).answers s
  | dtRdtp => exact execDtRdtp_reads.answers s
  | tmPutc ch => exact execTmPutc_answers ch hs
  | tmScroll => exact complete_answers _
  | tmClear => exact complete_answers _
  | tmSetcolor fg bg => exact complete_answers _
  | tmRdstate => exact complete_answers _
  | fbRd8 off => exact (execFbRd8_reads off).answers s
  | fbWr8 off data => exact .ite (refuse_answers _ _) (complete_answers _)
  | fbRd16 off => exact (execFbRd16_reads off).answers s
  | fbWr16 off data => exact .ite (refuse_answers _ _) (.ite (refuse_answers _ _) (complete_answers _))
  | fmtUtoa value base upper buf cap => exact .ite (refuse_answers _ _) (putText_answers _ _ _ s)
  | fmtItoa value buf cap => exact putText_answers _ _ _ s
  | fmtPtoa value buf cap => exact putText_answers _ _ _ s

/-! ## The step -/

theorem runWord_of_decode {w : CommandWord} (h : decode w = .ok i) (s : State) : runWord w s = exec i s := by
  rw [runWord, h]

theorem runWord_answers (w : CommandWord) (hs : s.CursorOk) : Answers (runWord w s) := by
  cases hw : decode w with
  | error e => rw [runWord, hw]; exact refuse_answers _ _
  | ok i => rw [runWord_of_decode hw]; exact exec_answers i hs

theorem step_of_nil (h : s.pending = []) : step s = .next s := by
  rw [step, runNext, h]

theorem step_of_cons {c : Command} {rest : List Command} (h : s.pending = c :: rest) :
    step s = runWord c.word (s.accept c rest) := by
  rw [step, runNext, h]

theorem step_answers (hs : s.CursorOk) : Answers (step s) := by
  cases hp : s.pending with
  | nil => rw [step_of_nil hp]; exact ⟨s, rfl⟩
  | cons c rest => rw [step_of_cons hp]; exact runWord_answers (s := s.accept c rest) c.word hs

/-- Settles O56: by induction on the number of steps: from the invariant a step answers, and keeps it. -/
theorem everyRunGoesOn : Obligations.EveryRunGoesOn := by
  intro n
  induction n with
  | zero => exact fun s hs => ⟨s, rfl, hs⟩
  | succ n ih =>
    intro s hs
    obtain ⟨u, hu⟩ := step_answers hs.cursor
    obtain ⟨t, ht, hinv⟩ := ih u (step_inv hs hu)
    exact ⟨t, run_succ_next.2 ⟨u, hu, ht⟩, hinv⟩

/-- Settles O8: a step at a word is `runWord` of it, which is exec of what the word decodes to. -/
theorem stepRunsTheDecodedCommand : Obligations.StepRunsTheDecodedCommand :=
  fun _ _ _ _ hp hw => (step_of_cons hp).trans (runWord_of_decode hw _)

/-- Settles O9: a step at a word is `runWord` of it, which refuses a word that is no command. -/
theorem stepRefusesWhatIsNoCommand : Obligations.StepRefusesWhatIsNoCommand :=
  fun _ _ _ hp => ⟨fun hw => (step_of_cons hp).trans (runWord_of_badOpcode hw _),
    fun hw => (step_of_cons hp).trans (runWord_of_reservedBits hw _)⟩

/-- Settles O10: the step at an empty list of commands is the idle one. -/
theorem stepWithNoCommandLeavesTheState : Obligations.StepWithNoCommandLeavesTheState := fun _ => step_of_nil

end Sys2Proof.Machine
end

section
/-! SUPPORT. The proofs about the causes of a refusal and their order (spec/60_exceptions.md R231, R232). Each command's
branches are said once, by the tests as numbers; the proofs about completed commands cite the same equations. -/

namespace Sys2Proof.Machine

variable {s : State}

/-! ## The tests of an offset and of a buffer, as numbers -/

theorem offPastTable_iff {off : BitVec 6} : offPastTable off = true ↔ 48 ≤ off.toNat := decide_eq_true_iff

theorem offPastFb_iff {off : BitVec 12} : offPastFb off = true ↔ 4000 ≤ off.toNat := decide_eq_true_iff

theorem offOdd_iff {off : BitVec 12} : offOdd off = true ↔ off.toNat % 2 = 1 := by rw [offOdd_eq, decide_eq_true_iff]

theorem bufWraps_iff {buf cap : Word} : bufWraps buf cap = true ↔ 2 ^ 32 < buf.toNat + cap.toNat := decide_eq_true_iff

theorem not_offPastTable {off : BitVec 6} (h : off.toNat < 48) : ¬offPastTable off = true := by
  rw [offPastTable_iff]; omega

theorem not_offPastFb {off : BitVec 12} (h : off.toNat < 4000) : ¬offPastFb off = true := by
  rw [offPastFb_iff]; omega

theorem not_offOdd {off : BitVec 12} (h : off.toNat % 2 = 0) : ¬offOdd off = true := by
  rw [offOdd_iff]; omega

/-! ## The branches of the DTE's commands (R113 to R115) -/

theorem execDtRd8_of_past {off : BitVec 6} (h : 48 ≤ off.toNat) : execDtRd8 off s = refuse .tblRange s :=
  if_pos (offPastTable_iff.2 h)

theorem execDtRd8_of_not_built {off : BitVec 6} (h : off.toNat < 48) (hb : s.built = false) :
    execDtRd8 off s = refuse .notBuilt s := by
  rw [execDtRd8, if_neg (not_offPastTable h), hb]
  rfl

theorem execDtRd8_of_load {off : BitVec 6} {b : Byte} (h : off.toNat < 48) (hb : s.built = true)
    (hl : s.tbl.load off.toNat = some b) : execDtRd8 off s = answer (zext64 b) s := by
  rw [execDtRd8, if_neg (not_offPastTable h), hb, hl]
  rfl

theorem execDtRdtp_of_not_built (hb : s.built = false) : execDtRdtp s = refuse .notBuilt s := by
  rw [execDtRdtp, hb]
  rfl

theorem execDtRdtp_of_tp {tp : BitVec 48} (hb : s.built = true) (htp : s.tp = some tp) :
    execDtRdtp s = answer (zext64 tp) s := by
  rw [execDtRdtp, hb, htp]
  rfl

theorem execDtInstall_of_not_built (hb : s.built = false) : execDtInstall s = refuse .notBuilt s := by
  rw [execDtInstall, hb]
  rfl

theorem execDtInstall_of_installed (hb : s.built = true) (hi : s.installed = true) :
    execDtInstall s = refuse .installed s := by
  rw [execDtInstall, hb, hi]
  rfl

theorem execDtInstall_of_cpuIf (hb : s.built = true) (hi : s.installed = false) (hif : s.cpuIf = true) :
    execDtInstall s = refuse .interruptsEnabled s := by
  rw [execDtInstall, hb, hi, hif]
  rfl

/-! ## The branches of the frame-buffer commands (R180 to R183) -/

section FrameBuffer

variable {off : BitVec 12}

theorem execFbRd8_of_past (h : 4000 ≤ off.toNat) : execFbRd8 off s = refuse .fbRange s := if_pos (offPastFb_iff.2 h)

theorem execFbRd8_of_undefined (h : off.toNat < 4000) (hl : s.fb.load off.toNat = none) :
    execFbRd8 off s = refuse .fbUndefined s := by
  rw [execFbRd8, if_neg (not_offPastFb h), hl]

theorem execFbRd8_of_load {b : Byte} (h : off.toNat < 4000) (hl : s.fb.load off.toNat = some b) :
    execFbRd8 off s = answer (zext64 b) s := by
  rw [execFbRd8, if_neg (not_offPastFb h), hl]

theorem execFbWr8_of_past {data : Byte} (h : 4000 ≤ off.toNat) : execFbWr8 off data s = refuse .fbRange s :=
  if_pos (offPastFb_iff.2 h)

theorem execFbWr8_of_lt {data : Byte} (h : off.toNat < 4000) :
    execFbWr8 off data s = complete (s.withFb (s.fb.store off.toNat (leBytes 1 data))) :=
  if_neg (not_offPastFb h)

theorem execFbRd16_of_past (h : 4000 ≤ off.toNat) : execFbRd16 off s = refuse .fbRange s := if_pos (offPastFb_iff.2 h)

theorem execFbRd16_of_odd (h : off.toNat < 4000) (hodd : off.toNat % 2 = 1) : execFbRd16 off s = refuse .fbAlign s := by
  rw [execFbRd16, if_neg (not_offPastFb h), if_pos (offOdd_iff.2 hodd)]

theorem execFbRd16_of_undefined (h : off.toNat < 4000) (heven : off.toNat % 2 = 0)
    (hl : s.fb.load off.toNat = none ∨ s.fb.load (off.toNat + 1) = none) :
    execFbRd16 off s = refuse .fbUndefined s := by
  rw [execFbRd16, if_neg (not_offPastFb h), if_neg (not_offOdd heven)]
  obtain hlo | hhi := hl
  · rw [hlo]
  · rw [hhi]
    cases s.fb.load off.toNat <;> rfl

theorem execFbRd16_of_load {lo hi : Byte} (h : off.toNat < 4000) (heven : off.toNat % 2 = 0)
    (hlo : s.fb.load off.toNat = some lo) (hhi : s.fb.load (off.toNat + 1) = some hi) :
    execFbRd16 off s = answer (zext64 (hi ++ lo)) s := by
  rw [execFbRd16, if_neg (not_offPastFb h), if_neg (not_offOdd heven), hlo, hhi]

theorem execFbWr16_of_past {data : Half} (h : 4000 ≤ off.toNat) : execFbWr16 off data s = refuse .fbRange s :=
  if_pos (offPastFb_iff.2 h)

theorem execFbWr16_of_odd {data : Half} (h : off.toNat < 4000) (hodd : off.toNat % 2 = 1) :
    execFbWr16 off data s = refuse .fbAlign s := by
  rw [execFbWr16, if_neg (not_offPastFb h), if_pos (offOdd_iff.2 hodd)]

theorem execFbWr16_of_lt {data : Half} (h : off.toNat < 4000) (heven : off.toNat % 2 = 0) :
    execFbWr16 off data s = complete (s.withFb (s.fb.store off.toNat (leBytes 2 data))) := by
  rw [execFbWr16, if_neg (not_offPastFb h), if_neg (not_offOdd heven)]

end FrameBuffer

/-! ## The branches of the FMT commands (R200, R203) -/

section Format

variable {buf cap : Word} {text : List Byte}

theorem putText_of_wraps (h : 2 ^ 32 < buf.toNat + cap.toNat) : putText text buf cap s = refuse .bufWrap s :=
  if_pos (bufWraps_iff.2 h)

theorem putText_of_cap_zero : putText text buf 0 s = answer 0 s := by
  have hlt : buf.toNat < 2 ^ 32 := buf.isLt
  have hwraps : ¬bufWraps buf 0 = true := by
    rw [bufWraps_iff, BitVec.ofNat_eq_ofNat, BitVec.toNat_zero]
    omega
  rw [putText, if_neg hwraps]
  rfl

theorem execFmtUtoa_of_badBase {value : Word} {base : Byte} {upper : Bool} (h10 : base ≠ 10) (h16 : base ≠ 16) :
    execFmtUtoa value base upper buf cap s = refuse .badBase s :=
  if_pos ⟨h10, h16⟩

end Format

/-- Settles O14: each clause is the branch of its command that the tests choose, and `refuse` writes the cause's code. -/
theorem firstCauseThatAppliesIsReported : Obligations.FirstCauseThatAppliesIsReported :=
  ⟨fun _ s h => runWord_of_badOpcode h s, fun _ s h => runWord_of_reservedBits h s,
    fun _ h => execDtBuild_of_installed h,
    fun _ _ h => execDtRd8_of_past h, fun _ _ h hb => execDtRd8_of_not_built h hb, fun _ hb => execDtRdtp_of_not_built hb,
    fun _ hb => execDtInstall_of_not_built hb, fun _ hb hi => execDtInstall_of_installed hb hi,
    fun _ hb hi hif => execDtInstall_of_cpuIf hb hi hif,
    fun _ _ h => execFbRd8_of_past h, fun _ _ h hl => execFbRd8_of_undefined h hl, fun _ _ _ h => execFbWr8_of_past h,
    fun _ _ h => execFbRd16_of_past h, fun _ _ h hodd => execFbRd16_of_odd h hodd,
    fun _ _ h heven hl => execFbRd16_of_undefined h heven hl, fun _ _ _ h => execFbWr16_of_past h,
    fun _ _ _ h hodd => execFbWr16_of_odd h hodd, fun _ _ _ _ _ _ h10 h16 => execFmtUtoa_of_badBase h10 h16,
    fun _ _ _ _ _ _ hbase h => (execFmtUtoa_of_base hbase).trans (putText_of_wraps h),
    fun _ _ _ _ h => putText_of_wraps h, fun _ _ _ _ h => putText_of_wraps h⟩

/-- Settles O48: the buffer contract's cap = 0 branch, for each command's text. -/
theorem fmtWithNoCapacityWritesNothing : Obligations.FmtWithNoCapacityWritesNothing :=
  ⟨fun _ _ _ _ _ hbase => (execFmtUtoa_of_base hbase).trans putText_of_cap_zero, fun _ _ _ => putText_of_cap_zero,
    fun _ _ _ => putText_of_cap_zero⟩

/-! ## The commands with no cause (R232) -/

/-- Only a command with a cause is refused, and every other effect leaves STATUS 0. -/
theorem exec_status_eq_zero {m : Mnemonic} (hm : m ∈ [.dtEncode, .tmPutc, .tmScroll, .tmClear, .tmSetcolor, .tmRdstate])
    {i : Instr} (hi : i.mnemonic = m) {t : State} (h : exec i s = .next t) : t.status = 0 := by
  cases exec_effect h with
  | refused _ _ hnot => exact absurd (hi ▸ hm) hnot
  | _ => rfl

/-- Settles O15: each of the six mnemonics is one that `Effect.refused` rules out. -/
theorem termAndEncodeCommandsAreNeverRefused : Obligations.TermAndEncodeCommandsAreNeverRefused :=
  ⟨fun _ _ _ _ _ _ => exec_status_eq_zero (m := .dtEncode) (by decide) rfl,
    fun _ _ _ => exec_status_eq_zero (m := .tmPutc) (by decide) rfl,
    fun _ _ => exec_status_eq_zero (m := .tmScroll) (by decide) rfl,
    fun _ _ => exec_status_eq_zero (m := .tmClear) (by decide) rfl,
    fun _ _ _ _ => exec_status_eq_zero (m := .tmSetcolor) (by decide) rfl,
    fun _ _ => exec_status_eq_zero (m := .tmRdstate) (by decide) rfl⟩

end Sys2Proof.Machine
end

section
/-! SUPPORT. The proofs about the DTE's commands that complete (spec/40_descriptor_encoder.md R103, R105, R110 to R114): the
entry as a number, and the table that dt.build wrote, read back. -/

namespace Sys2Proof

/-- Joined runs of bits as a number: the upper one above the lower. -/
theorem toNat_append_eq_add {m n : Nat} (x : BitVec m) (y : BitVec n) :
    (x ++ y).toNat = x.toNat * 2 ^ n + y.toNat := by
  rw [BitVec.toNat_append, ← Nat.shiftLeft_add_eq_or_of_lt y.isLt, Nat.shiftLeft_eq]

/-- A value of RES named by its number. -/
theorem eq_ofNat_of_toNat_eq {n k : Nat} {v : BitVec n} (h : v.toNat = k) : v = BitVec.ofNat n k := by
  rw [← h, BitVec.ofNat_toNat, BitVec.setWidth_eq]

end Sys2Proof

namespace Sys2Proof.Machine

variable {s : State}

theorem zext64_eq_ofNat {n : Nat} (v : BitVec n) : zext64 v = BitVec.ofNat 64 v.toNat := (BitVec.ofNat_toNat 64 v).symm

/-! ## The entry as a number (R103) -/

theorem encodeEntry_toNat (base : Word) (limit : BitVec 20) (access : Byte) (flags : BitVec 4) :
    (encodeEntry base limit access flags).toNat =
      limit.toNat % 2 ^ 16 + base.toNat % 2 ^ 24 * 2 ^ 16 + access.toNat * 2 ^ 40 + limit.toNat / 2 ^ 16 * 2 ^ 48 +
        flags.toNat * 2 ^ 52 + base.toNat / 2 ^ 24 * 2 ^ 56 := by
  simp only [encodeEntry, toNat_append_eq_add, BitVec.extractLsb'_toNat, Nat.shiftRight_eq_div_pow]
  omega

/-- Settles O17: dt.encode always answers the packed entry, whose number is the sum of its runs. -/
theorem dtEncodePacksItsOperands : Obligations.DtEncodePacksItsOperands := by
  intro base limit access flags s
  rw [← eq_ofNat_of_toNat_eq (encodeEntry_toNat base limit access flags)]
  rfl

/-! ## The table (R110 to R114) -/

/-- Settles O21: the second build stores over the first. -/
theorem secondBuildLeavesTheSameState : Obligations.SecondBuildLeavesTheSameState :=
  fun s t _ h => execDtBuild_repeats s t h

/-- Settles O22: a read of the built table is a byte of `tableBytes`, and those of the default are evaluated. -/
theorem defaultTableBytes : Obligations.DefaultTableBytes := by
  intro s hs hdefault
  refine ⟨_, execDtBuild_of_not_installed hs, fun a ha => ?_⟩
  have hlen : (tableBytes gdtDefault).length = 48 := tableBytes_length gdtDefault
  rw [hdefault, State.withOk_tbl, State.withTable_tbl, Memory.load_store, if_pos (by omega)]
  exact congrArg (·[a]?) (by decide)

/-- Settles O23: the branches in which the table is built and what is read holds a value. -/
theorem dtReadsReturnByteAndPointer : Obligations.DtReadsReturnByteAndPointer := by
  refine ⟨fun off s b hoff hb hl => ?_, fun s p hb hp => ?_⟩
  · rw [exec, execDtRd8_of_load hoff hb hl, zext64_eq_ofNat]
    rfl
  · rw [exec, execDtRdtp_of_tp hb hp, zext64_eq_ofNat]
    rfl

theorem builtPointer_toNat (p : Params) : (builtPointer p).toNat = 0x2F + p.tableBase.toNat * 2 ^ 16 := by
  rw [builtPointer, tablePointer, toNat_append_eq_add, Nat.add_comm]
  rfl

/-- Settles O24: offset off is byte off mod 8 of entry off / 8, and BUILT is 1, so both reads answer. -/
theorem builtTableReadsBack : Obligations.BuiltTableReadsBack := by
  intro s hs
  refine ⟨_, execDtBuild_of_not_installed hs, fun off e he => ?_, ?_⟩
  · have hlt : off.toNat / 8 < 6 := (List.getElem?_eq_some_iff.1 he).1
    have hbyte := load_tableBytes s.tbl (g := s.params.gdtInit) he (Nat.mod_lt off.toNat (by decide : 8 > 0))
    rw [Nat.div_add_mod] at hbyte
    exact execDtRd8_of_load (by omega) rfl hbyte
  · rw [← builtPointer_toNat, ← zext64_eq_ofNat]
    exact execDtRdtp_of_tp rfl rfl

end Sys2Proof.Machine
end

section
/-! SUPPORT. The proofs about the frame-buffer commands that complete (spec/42_frame_buffer.md R180 to R184, spec/20_memory.md
R54, R60): the bytes a write stores, and a read after it. -/

namespace Sys2Proof.Machine

variable {s : State}

/-- Settles O40: the branches in which the offset is in range and aligned and holds a value. -/
theorem fbReadsReturnTheBytes : Obligations.FbReadsReturnTheBytes := by
  refine ⟨fun off s b hoff hb => ?_, fun off s lo hi hoff heven hlo hhi => ?_⟩
  · rw [exec, execFbRd8_of_load hoff hb, zext64_eq_ofNat]
    rfl
  · rw [exec, execFbRd16_of_load hoff heven hlo hhi, zext64_eq_ofNat, toNat_append_eq_add, Nat.add_comm]
    rfl

/-! ## The bytes of a store (R52) -/

theorem leBytes_one (b : Byte) : leBytes 1 b = [b] := congrArg (fun b => [b]) BitVec.extractLsb'_eq_self

theorem leBytes_two (v : Half) : leBytes 2 v = [v.extractLsb' 0 8, v.extractLsb' 8 8] := rfl

theorem load_store_byte (m : Memory) (a : Nat) (b : Byte) (x : Nat) :
    (m.store a [b]).load x = if x = a then some b else m.load x := by
  rw [Memory.load_store, List.length_singleton]
  by_cases hx : x = a
  · rw [if_pos (by omega), if_pos hx, hx, Nat.sub_self]
    rfl
  · rw [if_neg (by omega), if_neg hx]

/-- An even offset is a cell's (R53, R55), so two bytes stored there are read as a drawn cell's are. -/
theorem load_store_pair (m : Memory) {a : Nat} (ha : a % 2 = 0) (lo hi : Byte) (x : Nat) :
    (m.store a [lo, hi]).load x = if x = a then some lo else if x = a + 1 then some hi else m.load x := by
  have hcell : cellOffset 0 (a / 2) = a := by unfold cellOffset; omega
  have hload := load_putCell 0 (a / 2) lo hi m x
  rwa [putCell, hcell] at hload

/-! ## Writes (R181, R183) -/

theorem exec_fbWr8 {off : BitVec 12} (data : Byte) (hoff : off.toNat < 4000) :
    exec (.fbWr8 off data) s = .next { s with fb := s.fb.store off.toNat [data], status := 0 } := by
  rw [exec, execFbWr8_of_lt hoff, leBytes_one]
  rfl

theorem exec_fbWr16 {off : BitVec 12} (data : Half) (hoff : off.toNat < 4000) (heven : off.toNat % 2 = 0) :
    exec (.fbWr16 off data) s = .next { s with
      fb := s.fb.store off.toNat [data.extractLsb' 0 8, data.extractLsb' 8 8], status := 0 } := by
  rw [exec, execFbWr16_of_lt hoff heven, leBytes_two]
  rfl

/-- Settles O41: a read of FB after the one store, at its bytes and elsewhere. -/
theorem fbWritesStoreTheirBytesOnly : Obligations.FbWritesStoreTheirBytesOnly := by
  refine ⟨fun off data s hoff => ?_, fun off data s hoff heven => ?_⟩
  · have hload := load_store_byte s.fb off.toNat data
    refine ⟨_, exec_fbWr8 data hoff, ?_, fun a ha => ?_, rfl⟩
    · rw [hload, if_pos rfl]
    · rw [hload, if_neg ha]
  · have hload := load_store_pair s.fb heven (data.extractLsb' 0 8) (data.extractLsb' 8 8)
    refine ⟨_, exec_fbWr16 data hoff heven, ?_, ?_, fun a ha ha' => ?_, rfl⟩
    · rw [hload, if_pos rfl]
    · rw [hload, if_neg (by omega), if_pos rfl]
    · rw [hload, if_neg ha, if_neg ha']

/-! ## A read after a write (R54, R60) -/

theorem half_eq_append_bytes (v : Half) : v.extractLsb' 8 8 ++ v.extractLsb' 0 8 = v := by
  rw [BitVec.extractLsb'_append_extractLsb'_eq_extractLsb' (by decide)]
  exact BitVec.extractLsb'_eq_self

/-- Settles O42: the reads find the bytes that `FbWritesStoreTheirBytesOnly` says the write left. -/
theorem fbReadSeesTheLastWrite : Obligations.FbReadSeesTheLastWrite := by
  obtain ⟨hwr8, hwr16⟩ := fbWritesStoreTheirBytesOnly
  refine ⟨fun off data s hoff => ?_, fun off data s hoff heven => ?_⟩
  · obtain ⟨t, ht, hbyte, -⟩ := hwr8 off data s hoff
    exact ⟨t, ht, execFbRd8_of_load hoff hbyte⟩
  · obtain ⟨t, ht, hlo, hhi, -⟩ := hwr16 off data s hoff heven
    have hnext : (off + 1).toNat = off.toNat + 1 := by simp; omega
    refine ⟨t, ht, ?_, execFbRd8_of_load hoff hlo, execFbRd8_of_load (by omega) (by rw [hnext, hhi])⟩
    refine (execFbRd16_of_load hoff heven hlo hhi).trans ?_
    rw [half_eq_append_bytes]
    rfl

end Sys2Proof.Machine
end

section
/-! SUPPORT. The proofs about the TERM's commands (spec/41_terminal.md R140 to R149): the cell drawn, the control
characters, the scroll and the clear, and that both are the rules' loops. -/

namespace Sys2Proof.Machine

open Sys2Proof.Spec

variable {s t : State} {m m' : Memory} {color : Byte}

/-! ## COLOR and the registers read (R147, R149) -/

/-- Settles O37: { bg, fg } is fg below bg shifted by its width. -/
theorem setColorStoresFgAndBg : Obligations.SetColorStoresFgAndBg := by
  intro fg bg s
  have hcolor : (bg ++ fg).toNat = fg.toNat ||| bg.toNat <<< 4 := by rw [BitVec.toNat_append, Nat.or_comm]
  rw [← eq_ofNat_of_toNat_eq hcolor]
  rfl

theorem termWord_toNat (s : State) :
    (termWord s).toNat = s.row.toNat + s.col.toNat * 2 ^ 8 + s.color.toNat * 2 ^ 16 + s.hwcur.toNat * 2 ^ 24 := by
  simp only [termWord, toNat_append_eq_add, BitVec.toNat_setWidth, BitVec.toNat_zero]
  omega

/-- Settles O38: the four registers joined, as a number. -/
theorem rdStatePacksTheTerminalRegisters : Obligations.RdStatePacksTheTerminalRegisters := by
  intro s
  rw [← eq_ofNat_of_toNat_eq (termWord_toNat s)]
  rfl

/-! ## tm.putc (R144) -/

/-- Settles O32: `State.typed` draws only on the grid. -/
theorem putcOutsideTheGridFaults : Obligations.PutcOutsideTheGridFaults := by
  intro ch s hch hoff
  have hgrid : ¬s.onGrid = true := by simpa [State.onGrid] using hoff
  have htyped : s.typed ch = none := (if_neg hch.1).trans ((if_neg hch.2).trans (if_neg hgrid))
  rw [exec, execTmPutc, htyped]

/-- HWCUR after `sync_cursor()` at a cursor on the grid, as a 16-bit value (R142). -/
theorem synced_hwcur_eq (hs : s.CursorOk) : s.synced.hwcur = BitVec.ofNat 16 s.index :=
  eq_ofNat_of_toNat_eq (synced_hwcur s hs)

/-- The one scroll test passes a cursor on the grid by, and HWCUR is its index. -/
theorem complete_scrolledIfOff_of_cursorOk (hs : s.CursorOk) :
    complete s.scrolledIfOff.synced = .next { s with hwcur := BitVec.ofNat 16 s.index, status := 0 } := by
  rw [State.scrolledIfOff_of_cursorOk hs, ← synced_hwcur_eq hs]
  rfl

/-- Settles O28: both control characters leave the cursor on the grid, at column 0. -/
theorem putcControlCharactersMoveTheCursor : Obligations.PutcControlCharactersMoveTheCursor := by
  refine ⟨fun s hrow _ => ?_, fun s hs => ?_⟩
  · have hnext : (s.row + 1).toNat = s.row.toNat + 1 := by simp; omega
    have hok : (s.withCursor (s.row + 1) 0).CursorOk := ⟨by simp only [State.withCursor_row]; omega, by simp⟩
    refine (complete_scrolledIfOff_of_cursorOk hok).trans ?_
    rw [State.index, State.withCursor_row, hnext]
    rfl
  · have hok : (s.withCursor s.row 0).CursorOk := ⟨hs.1, by simp⟩
    exact complete_scrolledIfOff_of_cursorOk hok

theorem exec_tmPutc_frame {ch : Byte} (h : exec (.tmPutc ch) s = .next t) :
    t = { s with fb := t.fb, row := t.row, col := t.col, hwcur := t.hwcur, status := 0 } := by
  obtain ⟨u, hu, rfl⟩ := execTmPutc_cases h
  exact execTmPutc_frame hu

theorem exec_tmPutc_lockstep {ch : Byte} (hs : s.CursorOk) (h : exec (.tmPutc ch) s = .next t) : t.Lockstep := by
  obtain ⟨u, hu, rfl⟩ := execTmPutc_cases h
  exact synced_withOk_lockstep (State.scrolledIfOff_cursorOk_of_typed hs hu)

/-- One cell on is one column on, or the start of the next row. -/
theorem MovesOn.cursor (hs : s.CursorOk) (h : MovesOn 1 s t) :
    if s.col.toNat = 79 then t.row.toNat = s.row.toNat + 1 ∧ t.col = 0
    else t.row = s.row ∧ t.col.toNat = s.col.toNat + 1 := by
  obtain ⟨⟨-, htcol⟩, hindex, -⟩ := h
  obtain ⟨-, hcol⟩ := hs
  unfold State.index at hindex
  split
  · exact ⟨by omega, BitVec.eq_of_toNat_eq (by simp; omega)⟩
  · exact ⟨BitVec.eq_of_toNat_eq (by omega), by omega⟩

/-- Settles O27: off the last cell the cursor moves on one cell and stays on the grid, so nothing scrolls. -/
theorem putcDrawsTheCellAndAdvances : Obligations.PutcDrawsTheCellAndAdvances := by
  intro ch s hch hs hlast
  have hindex : s.index < 1999 := by
    obtain ⟨hrow, hcol⟩ := hs
    unfold State.index
    omega
  obtain ⟨t, ht, hmoves, hfb⟩ := execTmPutc_movesOn hch hs hindex
  have hload := load_putCell s.row.toNat s.col.toNat ch s.color s.fb
  rw [← hfb] at hload
  refine ⟨t, ht, ?_, ?_, fun a ha => ?_, hmoves.cursor hs,
    (exec_tmPutc_lockstep hs ht).trans hmoves.index, exec_tmPutc_frame ht⟩
  · rw [hload, if_pos rfl]
  · rw [hload, if_neg (by omega), if_pos rfl]
  · rw [hload, if_neg (by omega), if_neg (by omega)]

/-! ## The scroll (R143 to R145) -/

theorem load_scrollFb_moved (color : Byte) (m : Memory) {a : Nat} (ha : a < 3840) :
    (scrollFb color m).load a = m.load (a + 160) := by
  rw [load_scrollFb, if_pos ha]

theorem load_scrollFb_blank (color : Byte) (m : Memory) {a : Nat} (h1 : 3840 ≤ a) (h2 : a < 4000) :
    (scrollFb color m).load a = some (blankByte color a) := by
  rw [load_scrollFb, if_neg (by omega), if_pos h2]
  rfl

theorem load_scrollFb_past (color : Byte) (m : Memory) {a : Nat} (ha : 4000 ≤ a) :
    (scrollFb color m).load a = m.load a := by
  rw [load_scrollFb, if_neg (by omega), if_neg (by omega)]

/-- Settles O33: tm.scroll always completes, and `scrollFb` says what it leaves in FB. -/
theorem tmScrollMovesRowsUp : Obligations.TmScrollMovesRowsUp :=
  fun s => ⟨_, rfl, fun _ => load_scrollFb_moved s.color s.fb, fun _ => load_scrollFb_blank s.color s.fb,
    fun _ => load_scrollFb_past s.color s.fb, rfl⟩

/-- The cursor moved past row 24, with FB as `m`: one scroll, and the cursor at (24, 0). -/
theorem complete_scrolledIfOff_of_off (s : State) (m : Memory) :
    complete ((s.withFb m).withCursor 25 0).scrolledIfOff.synced =
      .next { s with fb := scrollFb s.color m, row := 24, col := 0, hwcur := 1920, status := 0 } := by
  have hscrolled : ((s.withFb m).withCursor 25 0).scrolled = (s.withFb (scrollFb s.color m)).withCursor 24 0 := rfl
  rw [State.scrolledIfOff_of_eq rfl, hscrolled]
  rfl

theorem exec_newline_at_bottom (hrow : s.row = 24) :
    exec (.tmPutc 0x0A) s =
      .next { s with fb := scrollFb s.color s.fb, row := 24, col := 0, hwcur := 1920, status := 0 } := by
  have hnext : s.row + 1 = 25 := by rw [hrow]; rfl
  refine (execTmPutc_newline s).trans ?_
  rw [hnext]
  exact complete_scrolledIfOff_of_off s s.fb

theorem exec_drawn_at_last {ch : Byte} (hch : drawn ch) (hrow : s.row = 24) (hcol : s.col.toNat = 79) :
    exec (.tmPutc ch) s =
      .next { s with
        fb := scrollFb s.color (putCell 24 79 ch s.color s.fb), row := 24, col := 0, hwcur := 1920, status := 0 } := by
  have hs : s.CursorOk := ⟨by rw [hrow]; decide, by omega⟩
  have hadvanced := State.advanced_of_last (s := s.withFb (putCell s.row.toNat s.col.toNat ch s.color s.fb)) hcol
  refine (execTmPutc_drawn hch.1 hch.2 hs).trans ?_
  rw [hadvanced, State.withFb_row, hcol, hrow]
  exact complete_scrolledIfOff_of_off s _

/-- Settles O29: both forms scroll once, the FB before the scroll being the old one, or the old one with the last cell
drawn, which the scroll brings to offsets 3838 and 3839. -/
theorem putcAtTheBottomScrollsOnce : Obligations.PutcAtTheBottomScrollsOnce := by
  intro ch s hrow hcol hch
  have hrow24 : s.row = 24 := BitVec.eq_of_toNat_eq hrow
  obtain rfl | ⟨hdrawn, h79⟩ := hch
  · refine ⟨_, exec_newline_at_bottom hrow24, fun a ha => ?_, fun a => load_scrollFb_blank s.color s.fb,
      fun a => load_scrollFb_past s.color s.fb, rfl⟩
    simpa using load_scrollFb_moved s.color s.fb ha
  · have hlast : cellOffset 24 79 = 3998 := rfl
    refine ⟨_, exec_drawn_at_last hdrawn hrow24 h79, fun a ha => ?_, fun a => load_scrollFb_blank s.color _,
      fun a ha => ?_, rfl⟩
    · have hnl : ch ≠ 0x0A#8 := hdrawn.1
      refine (load_scrollFb_moved s.color _ ha).trans ?_
      rw [load_putCell, hlast]
      simp [hnl]
    · refine (load_scrollFb_past s.color _ ha).trans ?_
      rw [load_putCell, hlast, if_neg (by omega), if_neg (by omega)]

/-! ## The loops (R143, R146) -/

/-- What holds of a loop's memory before each turn, one turn further each time, holds after the last. -/
theorem foldl_range_induction {P : Nat → Memory → Prop} {f : Memory → Nat → Memory} {n : Nat} (h0 : P 0 m)
    (hstep : ∀ k, k < n → ∀ m, P k m → P (k + 1) (f m k)) : P n ((List.range n).foldl f m) := by
  induction n with
  | zero => exact h0
  | succ n ih =>
    rw [List.range_succ, List.foldl_append]
    exact hstep n (Nat.lt_succ_self n) _ (ih fun k hk => hstep k (Nat.lt_succ_of_lt hk))

theorem load_copyByte (m : Memory) (dst src a : Nat) :
    (copyByte m dst src).load a = if a = dst then m.load src else m.load a := by
  unfold copyByte
  split
  · next v hv => rw [load_store_byte, hv]
  · next hv =>
    have hfilter := Memory.load_filter (fun b => decide (b ≠ dst)) m a
    by_cases ha : a = dst
    · rw [if_pos ha, hv, hfilter, ha]; simp
    · rw [if_neg ha, hfilter, if_pos (decide_eq_true ha)]

theorem wf_copyByte (dst src : Nat) (h : m.wf) : (copyByte m dst src).wf := by
  unfold copyByte
  split
  · exact Memory.wf_store _ _ h
  · exact List.Pairwise.filter _ h

/-- `m'` is `m` with its first `n` bytes taken from a row, 160 offsets, above: the loop of R143 after `n` assignments. -/
structure MovedTo (n : Nat) (m m' : Memory) : Prop where
  wf : m'.wf
  load : ∀ a, m'.load a = if a < n then m.load (a + 160) else m.load a

/-- The byte to be read next lies past all that were written. -/
theorem MovedTo.after_copyByte {n : Nat} (h : MovedTo n m m') : MovedTo (n + 1) m (copyByte m' n (n + 160)) where
  wf := wf_copyByte _ _ h.wf
  load a := by
    have hread : m'.load (n + 160) = m.load (n + 160) := by rw [h.load, if_neg (by omega)]
    rw [load_copyByte, hread, h.load]
    obtain hlt | rfl | hgt := Nat.lt_trichotomy a n
    · rw [if_neg (by omega), if_pos hlt, if_pos (by omega)]
    · rw [if_pos rfl, if_pos (by omega)]
    · rw [if_neg (by omega), if_neg (by omega), if_neg (by omega)]

theorem MovedTo.after_copyCell {r c : Nat} (h : MovedTo (cellOffset r c) m m') :
    MovedTo (cellOffset r (c + 1)) m (copyByte (copyByte m' (cellOffset r c) (cellOffset (r + 1) c))
      (cellOffset r c + 1) (cellOffset (r + 1) c + 1)) := by
  have hsrc : cellOffset (r + 1) c = cellOffset r c + 160 := by unfold cellOffset; omega
  have hnext : cellOffset r (c + 1) = cellOffset r c + 1 + 1 := by unfold cellOffset; omega
  rw [hsrc, hnext, Nat.add_right_comm]
  exact h.after_copyByte.after_copyByte

/-- The first loop of R143 moves the 3840 bytes of rows 1 to 24 up a row. -/
theorem copyLoop_movedTo (h : m.wf) : MovedTo 3840 m (copyLoop m) := by
  refine foldl_range_induction (n := 24) (P := fun r => MovedTo (cellOffset r 0) m) ⟨h, fun _ => rfl⟩ fun r _ m' hr => ?_
  have hrow : cellOffset (r + 1) 0 = cellOffset r 80 := by unfold cellOffset; omega
  rw [hrow]
  exact foldl_range_induction (P := fun c => MovedTo (cellOffset r c) m) hr fun _ _ _ => MovedTo.after_copyCell

/-- `m'` is `m` with the offsets from `lo` up to `hi` blank: a loop of put_cell from `lo` that has reached `hi`. -/
structure BlankTo (color : Byte) (lo hi : Nat) (m m' : Memory) : Prop where
  wf : m'.wf
  load : ∀ a, m'.load a = if lo ≤ a ∧ a < hi then some (blankByte color a) else m.load a

theorem blankByte_cellOffset (color : Byte) (r c : Nat) :
    blankByte color (cellOffset r c) = 0x20#8 ∧ blankByte color (cellOffset r c + 1) = color := by
  unfold blankByte cellOffset
  exact ⟨if_pos (by omega), if_neg (by omega)⟩

theorem BlankTo.after_putCell {lo r c : Nat} (hlo : lo ≤ cellOffset r c) (h : BlankTo color lo (cellOffset r c) m m') :
    BlankTo color lo (cellOffset r (c + 1)) m (putCell r c 0x20 color m') where
  wf := wf_putCell _ _ _ _ h.wf
  load a := by
    obtain ⟨hchar, hattr⟩ := blankByte_cellOffset color r c
    have hnext : cellOffset r (c + 1) = cellOffset r c + 2 := by unfold cellOffset; omega
    rw [load_putCell, h.load, hnext]
    by_cases h0 : a = cellOffset r c
    · rw [if_pos h0, if_pos (by omega), h0, hchar]; rfl
    · by_cases h1 : a = cellOffset r c + 1
      · rw [if_neg h0, if_pos h1, if_pos (by omega), h1, hattr]
      · rw [if_neg h0, if_neg h1]
        exact if_congr (by omega) rfl rfl

theorem BlankTo.after_row {lo r : Nat} (hlo : lo ≤ cellOffset r 0) (h : BlankTo color lo (cellOffset r 0) m m') :
    BlankTo color lo (cellOffset (r + 1) 0) m ((List.range 80).foldl (fun m c => putCell r c 0x20 color m) m') := by
  have hrow : cellOffset (r + 1) 0 = cellOffset r 80 := by unfold cellOffset; omega
  rw [hrow]
  refine foldl_range_induction (P := fun c => BlankTo color lo (cellOffset r c) m) h fun c _ _ => BlankTo.after_putCell ?_
  unfold cellOffset at *
  omega

theorem BlankTo.refl (color : Byte) (lo : Nat) (h : m.wf) : BlankTo color lo lo m m :=
  ⟨h, fun _ => (if_neg (by omega)).symm⟩

/-- The second loop of R143 blanks row 24. -/
theorem blankLoop_blankTo (color : Byte) (h : m.wf) : BlankTo color 3840 4000 m (blankLoop color m) :=
  BlankTo.after_row (r := 24) (Nat.le_refl _) (.refl color 3840 h)

/-- The loops of R146 blank the grid. -/
theorem clearLoop_blankTo (color : Byte) (h : m.wf) : BlankTo color 0 4000 m (clearLoop color m) :=
  foldl_range_induction (n := 25) (P := fun r => BlankTo color 0 (cellOffset r 0) m) (.refl color 0 h)
    fun _ _ _ => BlankTo.after_row (Nat.zero_le _)

/-- Settles O34: both sides are canonical and read alike at every offset. -/
theorem scrollIsTheAscendingLoop : Obligations.ScrollIsTheAscendingLoop := by
  intro color m hm
  have hcopy := copyLoop_movedTo hm
  have hblank := blankLoop_blankTo color hcopy.wf
  refine Memory.ext_of_wf (wf_scrollFb color hm) hblank.wf fun a => ?_
  rw [hblank.load, hcopy.load]
  obtain hmoved | hrow | hpast : a < 3840 ∨ (3840 ≤ a ∧ a < 4000) ∨ 4000 ≤ a := by omega
  · rw [load_scrollFb_moved color m hmoved, if_neg (by omega), if_pos hmoved]
  · rw [load_scrollFb_blank color m hrow.1 hrow.2, if_pos hrow]
  · rw [load_scrollFb_past color m hpast, if_neg (by omega), if_neg (by omega)]

/-! ## tm.clear (R146) -/

theorem load_clear_blank (color : Byte) (m : Memory) {a : Nat} (ha : a < 4000) :
    (m.store 0 (blankCells 2000 color)).load a = some (blankByte color a) := by
  rw [load_clear, if_pos ha]
  rfl

theorem load_clear_past (color : Byte) (m : Memory) {a : Nat} (ha : 4000 ≤ a) :
    (m.store 0 (blankCells 2000 color)).load a = m.load a := by
  rw [load_clear, if_neg (by omega)]

/-- The one store of 2000 blank cells is what the loops of R146 leave. -/
theorem clear_eq_clearLoop (color : Byte) (hm : m.wf) : m.store 0 (blankCells 2000 color) = clearLoop color m := by
  have hblank := clearLoop_blankTo color hm
  refine Memory.ext_of_wf (Memory.wf_store _ _ hm) hblank.wf fun a => ?_
  rw [hblank.load]
  obtain ha | ha := Nat.lt_or_ge a 4000
  · rw [load_clear_blank color m ha, if_pos ⟨Nat.zero_le a, ha⟩]
  · rw [load_clear_past color m ha, if_neg (by omega)]

/-- Settles O35: tm.clear always completes, and its one store is the loops' result. -/
theorem tmClearBlanksTheGrid : Obligations.TmClearBlanksTheGrid :=
  fun s => ⟨_, rfl, fun _ => load_clear_blank s.color s.fb, fun _ => load_clear_past s.color s.fb, rfl,
    clear_eq_clearLoop s.color⟩

end Sys2Proof.Machine
end

section
/-! SUPPORT. The proofs about the assembler (spec/30_encoding.md R85, R86): a line gives its expansion exactly when it is
well-formed, and a literal that fits its field is the field's value. -/

namespace Sys2Proof.Machine

theorem fits_iff {width n : Nat} : fits width n = true ↔ n < 2 ^ width := decide_eq_true_iff

/-- The assembler takes a line exactly when `p` holds of its literals, and then gives `is`. Of a line of literals alone
`p` is that each fits its field, and `is` is its command with the literals as they are. -/
theorem assemble_eq_dite {src : Source} {p : Prop} [Decidable p] {is : p → List Instr}
    (hwf : src.wf = true ↔ p := by simp only [Source.wf, Bool.and_eq_true, fits_iff, and_assoc])
    (hexpand : ∀ h, expand src = is h := by simp only [expand, BitVec.ofNatLT_eq_ofNat, implies_true]) :
    assemble src = if h : p then some (is h) else none := by
  unfold assemble
  by_cases hp : p
  · rw [if_pos (hwf.2 hp), dif_pos hp, hexpand hp]
  · rw [if_neg (mt hwf.1 hp), dif_neg hp]

/-- Settles O57: a tm.write string is well-formed when it has no 0x00, and the other lines are evaluated. -/
theorem pseudoInstructionsExpand : Obligations.PseudoInstructionsExpand := by
  refine ⟨fun s => ?_, rfl, rfl, fun _ _ => rfl⟩
  have hwf : (Source.tmWrite s).wf = true ↔ 0x00#8 ∉ s := by
    simp only [Source.wf, List.all_eq_true, bne_iff_ne, ne_eq]
    exact ⟨fun h hmem => h _ hmem rfl, fun h b hb hzero => h (hzero ▸ hb)⟩
  rw [assemble_eq_dite hwf fun _ => rfl]
  by_cases hmem : 0x00#8 ∈ s
  · rw [if_pos hmem, dif_neg (not_not.2 hmem)]
  · rw [if_neg hmem, dif_pos hmem]
    rfl

/-! ## Signed literals (R85) -/

theorem fmtItoa_wf_iff {value : Int} {buf cap : Nat} :
    (Source.fmtItoa value buf cap).wf = true ↔ -2 ^ 31 ≤ value ∧ value < 2 ^ 32 ∧ buf < 2 ^ 32 ∧ cap < 2 ^ 32 := by
  simp only [Source.wf, Bool.and_eq_true, decide_eq_true_eq, fits_iff, and_assoc]

/-- A literal below 2^31 is its two's complement's value, and one from 2^31 on the word's own number. -/
theorem ofInt_value {value : Int} (hlow : -2 ^ 31 ≤ value) (hhigh : value < 2 ^ 32) :
    if value < 2 ^ 31 then (BitVec.ofInt 32 value).toInt = value else ((BitVec.ofInt 32 value).toNat : Int) = value := by
  split
  · exact BitVec.toInt_ofInt_eq_self (by decide) hlow ‹_›
  · rw [BitVec.toNat_ofInt]; omega

/-- Settles O58: each line is well-formed exactly when its literals fit, and `ofNatLT` and `ofNat` of one that fits are the
same. -/
theorem assemblerRejectsWideLiterals : Obligations.AssemblerRejectsWideLiterals := by
  refine ⟨fun base limit access flags => assemble_eq_dite, fun off => assemble_eq_dite, fun ch => assemble_eq_dite,
    fun fg bg => assemble_eq_dite, fun off => assemble_eq_dite, fun off data => assemble_eq_dite,
    fun off => assemble_eq_dite, fun off data => assemble_eq_dite, fun value base upper buf cap => assemble_eq_dite ?_,
    fun value buf cap hlow hhigh hbuf hcap => ?_, fun value buf cap hwide => ?_, fun value buf cap => assemble_eq_dite⟩
  · simp only [Source.wf, Bool.and_eq_true, fits_iff, and_assoc, pow_one]
  · refine ⟨_, _, _, if_pos (fmtItoa_wf_iff.2 ⟨hlow, hhigh, hbuf, hcap⟩), ofInt_value hlow hhigh, ?_, ?_⟩
    · rw [BitVec.toNat_ofNat, Nat.mod_eq_of_lt hbuf]
    · rw [BitVec.toNat_ofNat, Nat.mod_eq_of_lt hcap]
  · exact if_neg fun hwf => by have := fmtItoa_wf_iff.1 hwf; omega

end Sys2Proof.Machine
end
